-- ==== Sys2Proof/Word.lean ====
section
/-! DEFINITION. The widths of the machine's words (spec 00_scope.md rule R2, 30_encoding.md rule R61).
Every value is unsigned (00_scope.md section 6). -/

namespace Sys2Proof

/-- A memory byte, a general register or a timer: 8 bits. -/
abbrev Byte := BitVec 8

/-- An opcode, the index register I, the program counter or a return address: 16 bits. -/
abbrev Word := BitVec 16

/-- A 4-bit field: a register number (X, Y), the row count N, or a key number. -/
abbrev Nibble := BitVec 4

/-- The 12-bit field NNN. -/
abbrev Addr := BitVec 12

end Sys2Proof
end

