-- ==== Sys2Proof/Syntax.lean ====
section
/-! DEFINITION. The instructions: one constructor per row of spec/opcode_table.json, in the table's
order (30_encoding.md rule R65). Each docstring gives the row's pattern and its rule. -/

namespace Sys2Proof

inductive Instr where
  /-- 00E0 CLS, R160 -/
  | cls
  /-- 00EE RET, R100 -/
  | ret
  /-- 1NNN JP addr, R101 -/
  | jpAddr (nnn : Addr)
  /-- 2NNN CALL addr, R102 -/
  | callAddr (nnn : Addr)
  /-- 3XNN SE Vx, byte, R103 -/
  | seVxByte (x : Nibble) (nn : Byte)
  /-- 4XNN SNE Vx, byte, R104 -/
  | sneVxByte (x : Nibble) (nn : Byte)
  /-- 5XY0 SE Vx, Vy, R105 -/
  | seVxVy (x y : Nibble)
  /-- 6XNN LD Vx, byte, R120 -/
  | ldVxByte (x : Nibble) (nn : Byte)
  /-- 7XNN ADD Vx, byte, R121 -/
  | addVxByte (x : Nibble) (nn : Byte)
  /-- 8XY0 LD Vx, Vy, R122 -/
  | ldVxVy (x y : Nibble)
  /-- 8XY1 OR Vx, Vy, R123 -/
  | orVxVy (x y : Nibble)
  /-- 8XY2 AND Vx, Vy, R124 -/
  | andVxVy (x y : Nibble)
  /-- 8XY3 XOR Vx, Vy, R125 -/
  | xorVxVy (x y : Nibble)
  /-- 8XY4 ADD Vx, Vy, R126 -/
  | addVxVy (x y : Nibble)
  /-- 8XY5 SUB Vx, Vy, R127 -/
  | subVxVy (x y : Nibble)
  /-- 8XY6 SHR Vx, Vy, R128 -/
  | shrVxVy (x y : Nibble)
  /-- 8XY7 SUBN Vx, Vy, R129 -/
  | subnVxVy (x y : Nibble)
  /-- 8XYE SHL Vx, Vy, R130 -/
  | shlVxVy (x y : Nibble)
  /-- 9XY0 SNE Vx, Vy, R106 -/
  | sneVxVy (x y : Nibble)
  /-- ANNN LD I, addr, R140 -/
  | ldIAddr (nnn : Addr)
  /-- BNNN JP V0, addr, R107; its X field is the top digit of NNN (R70) -/
  | jpV0Addr (nnn : Addr)
  /-- CXNN RND Vx, byte, R176 -/
  | rndVxByte (x : Nibble) (nn : Byte)
  /-- DXYN DRW Vx, Vy, nibble, R161 -/
  | drwVxVy (x y n : Nibble)
  /-- EX9E SKP Vx, R170 -/
  | skpVx (x : Nibble)
  /-- EXA1 SKNP Vx, R171 -/
  | sknpVx (x : Nibble)
  /-- FX07 LD Vx, DT, R173 -/
  | ldVxDT (x : Nibble)
  /-- FX0A LD Vx, K, R172 -/
  | ldVxK (x : Nibble)
  /-- FX15 LD DT, Vx, R174 -/
  | ldDTVx (x : Nibble)
  /-- FX18 LD ST, Vx, R175 -/
  | ldSTVx (x : Nibble)
  /-- FX1E ADD I, Vx, R141 -/
  | addIVx (x : Nibble)
  /-- FX29 LD F, Vx, R142 -/
  | ldFVx (x : Nibble)
  /-- FX33 LD B, Vx, R143 -/
  | ldBVx (x : Nibble)
  /-- FX55 LD [I], Vx, R144 -/
  | dumpVx (x : Nibble)
  /-- FX65 LD Vx, [I], R145 -/
  | loadVx (x : Nibble)
  /-- any word that selects no other row, with its 16 bits, R66 and R85 -/
  | unrecognized (w : Word)
  deriving DecidableEq, Repr

end Sys2Proof
end

