-- ==== Sys2Proof/Decode.lean ====
section
/-! DEFINITION. The decoder, the encoder and the opcode map (spec 30_encoding.md). Decoding is total:
every 16-bit word is some instruction (rules R66, R83); only a byte list too short to hold a word is
rejected, by name. -/

namespace Sys2Proof

/-! ### Fields (rule R61) -/

/-- OP = opcode[15:12]. -/
def fieldOp (w : Word) : Nibble := w.extractLsb' 12 4
/-- X = opcode[11:8]. -/
def fieldX (w : Word) : Nibble := w.extractLsb' 8 4
/-- Y = opcode[7:4]. -/
def fieldY (w : Word) : Nibble := w.extractLsb' 4 4
/-- N = opcode[3:0]. -/
def fieldN (w : Word) : Nibble := w.extractLsb' 0 4
/-- NN = opcode[7:0]. -/
def fieldNN (w : Word) : Byte := w.extractLsb' 0 8
/-- NNN = opcode[11:0]. -/
def fieldNNN (w : Word) : Addr := w.extractLsb' 0 12

/-! ### Decode: dispatch on the top digit, then on the family's secondary key (rule R64) -/

/-- OP = 0: the secondary key is the whole word. -/
def decodeSystem (w : Word) : Instr :=
  if w = 0x00E0#16 then .cls
  else if w = 0x00EE#16 then .ret
  else .unrecognized w

/-- OP = 8: the secondary key is N. -/
def decodeAlu (w : Word) : Instr :=
  match fieldN w with
  | 0x0#4 => .ldVxVy (fieldX w) (fieldY w)
  | 0x1#4 => .orVxVy (fieldX w) (fieldY w)
  | 0x2#4 => .andVxVy (fieldX w) (fieldY w)
  | 0x3#4 => .xorVxVy (fieldX w) (fieldY w)
  | 0x4#4 => .addVxVy (fieldX w) (fieldY w)
  | 0x5#4 => .subVxVy (fieldX w) (fieldY w)
  | 0x6#4 => .shrVxVy (fieldX w) (fieldY w)
  | 0x7#4 => .subnVxVy (fieldX w) (fieldY w)
  | 0xE#4 => .shlVxVy (fieldX w) (fieldY w)
  | _ => .unrecognized w

/-- OP = E: the secondary key is NN. -/
def decodeKey (w : Word) : Instr :=
  match fieldNN w with
  | 0x9E#8 => .skpVx (fieldX w)
  | 0xA1#8 => .sknpVx (fieldX w)
  | _ => .unrecognized w

/-- OP = F: the secondary key is NN. -/
def decodeMisc (w : Word) : Instr :=
  match fieldNN w with
  | 0x07#8 => .ldVxDT (fieldX w)
  | 0x0A#8 => .ldVxK (fieldX w)
  | 0x15#8 => .ldDTVx (fieldX w)
  | 0x18#8 => .ldSTVx (fieldX w)
  | 0x1E#8 => .addIVx (fieldX w)
  | 0x29#8 => .ldFVx (fieldX w)
  | 0x33#8 => .ldBVx (fieldX w)
  | 0x55#8 => .dumpVx (fieldX w)
  | 0x65#8 => .loadVx (fieldX w)
  | _ => .unrecognized w

/-- DECODE (rules R64, R65, R66, R83): a pure function of the opcode, defined on all 65536 words. -/
def decodeWord (w : Word) : Instr :=
  match fieldOp w with
  | 0x0#4 => decodeSystem w
  | 0x1#4 => .jpAddr (fieldNNN w)
  | 0x2#4 => .callAddr (fieldNNN w)
  | 0x3#4 => .seVxByte (fieldX w) (fieldNN w)
  | 0x4#4 => .sneVxByte (fieldX w) (fieldNN w)
  | 0x5#4 => if fieldN w = 0x0#4 then .seVxVy (fieldX w) (fieldY w) else .unrecognized w
  | 0x6#4 => .ldVxByte (fieldX w) (fieldNN w)
  | 0x7#4 => .addVxByte (fieldX w) (fieldNN w)
  | 0x8#4 => decodeAlu w
  | 0x9#4 => if fieldN w = 0x0#4 then .sneVxVy (fieldX w) (fieldY w) else .unrecognized w
  | 0xA#4 => .ldIAddr (fieldNNN w)
  | 0xB#4 => .jpV0Addr (fieldNNN w)
  | 0xC#4 => .rndVxByte (fieldX w) (fieldNN w)
  | 0xD#4 => .drwVxVy (fieldX w) (fieldY w) (fieldN w)
  | 0xE#4 => decodeKey w
  | _ => decodeMisc w

/-- Why a byte list is no instruction: it ends before the second byte of the word. Safe: nothing is
decoded. The machine's own fetch never raises it (Machine/Ops.lean, `fetch16`). -/
inductive DecodeError where
  | truncated
  deriving DecidableEq, Repr

/-- The opcode of two bytes, the first the high byte (20_memory.md rule R43). -/
def wordOfBytes (hi lo : Byte) : Word := BitVec.ofNat 16 (hi.toNat * 256 + lo.toNat)

/-- Decode the instruction at the head of a byte list, and give the rest (rule R60: always two bytes). -/
def decodeBytes : List Byte → Except DecodeError (Instr × List Byte)
  | hi :: lo :: rest => .ok (decodeWord (wordOfBytes hi lo), rest)
  | _ => .error .truncated

/-! ### Encode: the digits of each pattern, most significant first (rules R62, R65) -/

/-- The word with the four hexadecimal digits op, x, y, n. -/
def wordXYN (op x y n : Nibble) : Word :=
  BitVec.ofNat 16 (op.toNat * 4096 + x.toNat * 256 + y.toNat * 16 + n.toNat)

/-- The word op, x and the low byte nn: formats XNN and Xnn. -/
def wordXNN (op x : Nibble) (nn : Byte) : Word :=
  BitVec.ofNat 16 (op.toNat * 4096 + x.toNat * 256 + nn.toNat)

/-- The word op and the address nnn: format NNN. -/
def wordNNN (op : Nibble) (nnn : Addr) : Word := BitVec.ofNat 16 (op.toNat * 4096 + nnn.toNat)

/-- The word of an instruction, by its pattern in rule R65. -/
def encode : Instr → Word
  | .cls => 0x00E0
  | .ret => 0x00EE
  | .jpAddr nnn => wordNNN 0x1 nnn
  | .callAddr nnn => wordNNN 0x2 nnn
  | .seVxByte x nn => wordXNN 0x3 x nn
  | .sneVxByte x nn => wordXNN 0x4 x nn
  | .seVxVy x y => wordXYN 0x5 x y 0x0
  | .ldVxByte x nn => wordXNN 0x6 x nn
  | .addVxByte x nn => wordXNN 0x7 x nn
  | .ldVxVy x y => wordXYN 0x8 x y 0x0
  | .orVxVy x y => wordXYN 0x8 x y 0x1
  | .andVxVy x y => wordXYN 0x8 x y 0x2
  | .xorVxVy x y => wordXYN 0x8 x y 0x3
  | .addVxVy x y => wordXYN 0x8 x y 0x4
  | .subVxVy x y => wordXYN 0x8 x y 0x5
  | .shrVxVy x y => wordXYN 0x8 x y 0x6
  | .subnVxVy x y => wordXYN 0x8 x y 0x7
  | .shlVxVy x y => wordXYN 0x8 x y 0xE
  | .sneVxVy x y => wordXYN 0x9 x y 0x0
  | .ldIAddr nnn => wordNNN 0xA nnn
  | .jpV0Addr nnn => wordNNN 0xB nnn
  | .rndVxByte x nn => wordXNN 0xC x nn
  | .drwVxVy x y n => wordXYN 0xD x y n
  | .skpVx x => wordXNN 0xE x 0x9E
  | .sknpVx x => wordXNN 0xE x 0xA1
  | .ldVxDT x => wordXNN 0xF x 0x07
  | .ldVxK x => wordXNN 0xF x 0x0A
  | .ldDTVx x => wordXNN 0xF x 0x15
  | .ldSTVx x => wordXNN 0xF x 0x18
  | .addIVx x => wordXNN 0xF x 0x1E
  | .ldFVx x => wordXNN 0xF x 0x29
  | .ldBVx x => wordXNN 0xF x 0x33
  | .dumpVx x => wordXNN 0xF x 0x55
  | .loadVx x => wordXNN 0xF x 0x65
  | .unrecognized w => w

/-- The two bytes of a word, high byte first (rule R60, 20_memory.md rule R43). -/
def bytesOfWord (w : Word) : List Byte := [w.extractLsb' 8 8, w.extractLsb' 0 8]

/-- The bytes of an instruction as they lie in memory. -/
def encodeBytes (i : Instr) : List Byte := bytesOfWord (encode i)

/-! ### The opcode map (rule R65): mask and match of each of the 34 rows -/

/-- One row: an opcode selects it exactly when opcode & mask = match. -/
structure OpcodeRow where
  mask : Word
  value : Word
  deriving DecidableEq, Repr

def OpcodeRow.selects (r : OpcodeRow) (w : Word) : Bool := (w &&& r.mask) == r.value

/-- The rows of rule R65, in its order. -/
def opcodeMap : List OpcodeRow :=
  [⟨0xFFFF, 0x00E0⟩, ⟨0xFFFF, 0x00EE⟩, ⟨0xF000, 0x1000⟩, ⟨0xF000, 0x2000⟩, ⟨0xF000, 0x3000⟩,
   ⟨0xF000, 0x4000⟩, ⟨0xF00F, 0x5000⟩, ⟨0xF000, 0x6000⟩, ⟨0xF000, 0x7000⟩, ⟨0xF00F, 0x8000⟩,
   ⟨0xF00F, 0x8001⟩, ⟨0xF00F, 0x8002⟩, ⟨0xF00F, 0x8003⟩, ⟨0xF00F, 0x8004⟩, ⟨0xF00F, 0x8005⟩,
   ⟨0xF00F, 0x8006⟩, ⟨0xF00F, 0x8007⟩, ⟨0xF00F, 0x800E⟩, ⟨0xF00F, 0x9000⟩, ⟨0xF000, 0xA000⟩,
   ⟨0xF000, 0xB000⟩, ⟨0xF000, 0xC000⟩, ⟨0xF000, 0xD000⟩] ++
  [⟨0xF0FF, 0xE09E⟩, ⟨0xF0FF, 0xE0A1⟩, ⟨0xF0FF, 0xF007⟩, ⟨0xF0FF, 0xF00A⟩, ⟨0xF0FF, 0xF015⟩,
   ⟨0xF0FF, 0xF018⟩, ⟨0xF0FF, 0xF01E⟩, ⟨0xF0FF, 0xF029⟩, ⟨0xF0FF, 0xF033⟩, ⟨0xF0FF, 0xF055⟩,
   ⟨0xF0FF, 0xF065⟩]

/-- The opcode selects some row; every other opcode is unrecognized (rule R66). -/
def recognized (w : Word) : Bool := opcodeMap.any (·.selects w)

/-! ### The opcode table's numbering of bits -/

/-- The instruction the decoder reads from a table word: bit 0 of w is the least significant bit of the
first (and only) 16-bit word; bits from nbits up are 0. The word is laid out as the hardware stores it
(rule R43) and given to `decodeBytes`. -/
def decodeTableWord (nbits w : Nat) : Option Instr :=
  match decodeBytes (bytesOfWord (BitVec.ofNat 16 (w % 2 ^ nbits))) with
  | .ok (i, _) => some i
  | .error _ => none

end Sys2Proof
end

