-- ==== Sys2Proof/Config.lean ====
section
/-! DEFINITION. What an implementation fixes (spec 00_scope.md section 4, rules R3 to R8) and the one
open value of the machine. The configuration that `Reset` latches is a structure, so that every
statement can be made for all of its values; the defaults stand in Machine/Boot.lean. -/

namespace Sys2Proof

/-- The configuration supplied before the first cycle (rules R3 to R7, R9). The bound
STACK_CAPACITY <= 16 is in the type; the others are `Config.wf` (Machine/Boot.lean). -/
structure Config where
  /-- STACK_CAPACITY (R3): how many return addresses the call stack holds. -/
  stackCapacity : Fin 17
  /-- DISPLAY_W (R4): the pixel buffer's width in cells. -/
  displayW : Nat
  /-- DISPLAY_H (R4): the pixel buffer's height in cells. -/
  displayH : Nat
  /-- IPS (R5): the configured instructions-per-second rate. -/
  ips : Nat
  /-- Q_VF_RESET (R6): 8XY1, 8XY2, 8XY3 force VF to 0. -/
  qVfReset : Bool
  /-- Q_SHIFT_VY (R6): 8XY6, 8XYE shift VY when true, VX when false. -/
  qShiftVy : Bool
  /-- Q_JUMP_VX (R6): BNNN adds VX when true, V0 when false. -/
  qJumpVx : Bool
  /-- Q_MEM_INCR (R6): FX55, FX65 advance I when true. -/
  qMemIncr : Bool
  /-- Q_CLIP (R6): DXYN clips at the screen edges when true, wraps when false. -/
  qClip : Bool
  /-- FONT (R7): 16 glyphs of 5 bytes. -/
  font : Vector Byte 80
  deriving DecidableEq, Repr

/-- The random source (rules R8, R24): the byte the n-th draw gives when nobody outside supplied one.
A FREE VALUE, without a body: the spec puts it "under no law". Assumption log 3. -/
opaque Config.randomByte : Nat → Byte

end Sys2Proof
end

