-- ==== Sys2Proof/Machine/Boot.lean ====
section
/-! DEFINITION. What the machine starts from: the bounds on a configuration, the configuration that
`State.reset` uses, the font table, and what memory holds where nothing is listed (spec 00_scope.md
section 4, 20_memory.md rules R41 and R42, 70_reset_and_hazards.md rules R220 to R223). -/

namespace Sys2Proof

/-- A configuration the spec admits: 12 <= STACK_CAPACITY (and <= 16, by its type), DISPLAY_W >= 8 and
DISPLAY_H >= 1 (rules R3, R4). -/
def Config.wf (c : Config) : Bool :=
  decide (12 ≤ c.stackCapacity.val) && decide (8 ≤ c.displayW) && decide (1 ≤ c.displayH)

/-- K = floor(IPS / 60), the instruction cycles of one batch (rules R5, R202). -/
def Config.cyclesPerTick (c : Config) : Nat := c.ips / 60

/-- How many addresses the memory has: 0 to 4095 (rule R1). -/
def memSize : Nat := 4096

/-- Where the ROM is placed (rule R41). -/
def romBase : Nat := 0x200

/-- The longest ROM: 4096 - 0x200 = 3584 bytes (rule R221). -/
def romMax : Nat := memSize - romBase

/-- The entry point, the reset value of pc (rules R13, R220). -/
def entryPoint : Word := 0x200

/-- Glyphs 0 to 7 of the font table of rule R42 [the spec marks it general knowledge, G1]. -/
def fontLow : List Byte :=
  [0xF0, 0x90, 0x90, 0x90, 0xF0,  0x20, 0x60, 0x20, 0x20, 0x70,
   0xF0, 0x10, 0xF0, 0x80, 0xF0,  0xF0, 0x10, 0xF0, 0x10, 0xF0,
   0x90, 0x90, 0xF0, 0x10, 0x10,  0xF0, 0x80, 0xF0, 0x10, 0xF0,
   0xF0, 0x80, 0xF0, 0x90, 0xF0,  0xF0, 0x10, 0x20, 0x40, 0x40]

/-- Glyphs 8 to F of the font table of rule R42. -/
def fontHigh : List Byte :=
  [0xF0, 0x90, 0xF0, 0x90, 0xF0,  0xF0, 0x90, 0xF0, 0x10, 0xF0,
   0xF0, 0x90, 0xF0, 0x90, 0x90,  0xE0, 0x90, 0xE0, 0x90, 0xE0,
   0xF0, 0x80, 0x80, 0x80, 0xF0,  0xE0, 0x90, 0x90, 0x90, 0xE0,
   0xF0, 0x80, 0xF0, 0x80, 0xF0,  0xF0, 0x80, 0xF0, 0x80, 0x80]

/-- The default FONT (rules R7, R42). Assumption log 4. -/
def conventionalFont : Vector Byte 80 := ⟨(fontLow ++ fontHigh).toArray, by decide⟩

/-- The configuration `State.reset` is made with. The stack capacity, the display size and the font are
the spec's defaults (R3, R4, R7); IPS and the five switches have none and are named in assumption
log 2 (PRESUMED, unsafe). No statement about instructions rests on them: the configuration is a field
of State, and statements are made for every value of it. -/
def bootConfig : Config where
  stackCapacity := 12
  displayW := 64
  displayH := 32
  ips := 700
  qVfReset := true
  qShiftVy := true
  qJumpVx := false
  qMemIncr := true
  qClip := true
  font := conventionalFont

namespace Machine

/-- What an address with no entry in the memory list reads as: the contents after a reset with the
default font and an empty ROM (rules R41, R220, R222), zero outside the font. -/
def unlisted (a : Nat) : Byte := conventionalFont.toList.getD a 0

end Machine

end Sys2Proof
end

