-- ==== Sys2Proof/Machine/State.lean ====
section
/-! DEFINITION. The machine's state as plain data (spec 10_state.md), the events it takes, why a step
can stop, and the state right after reset. -/

namespace Sys2Proof.Machine

/-- The 4096 bytes of memory (rule R40): (address, byte) pairs in one canonical form, addresses strictly
rising and no entry equal to `unlisted` (Machine/Ops.lean, `Memory.wf`). -/
abbrev Memory := List Host.Cell

/-- The key-wait state of FX0A (rule R20). -/
inductive KwState where
  | idle
  | awaitingPress
  | awaitingRelease
  deriving DecidableEq, Repr

/-- run_state (rule R21). -/
inductive RunState where
  | running
  | fault
  deriving DecidableEq, Repr

/-- fault_cause (rules R21, R190); the codes are `FaultCause.code` (Machine/Ops.lean). -/
inductive FaultCause where
  /-- code 0 -/
  | none
  /-- code 1, raised by 2NNN -/
  | stackOverflow
  /-- code 2, raised by 00EE -/
  | stackUnderflow
  /-- code 3, raised by FETCH -/
  | fetchOutOfBounds
  /-- code 4, raised by DXYN, FX33, FX55, FX65 -/
  | dataAddressFault
  /-- code 5, raised by EX9E, EXA1 -/
  | keyIndexFault
  /-- code 6, raised by Reset -/
  | romTooLarge
  deriving DecidableEq, Repr

/-- The five atomic events that change the state (40_instruction_cycle.md rule R80). -/
inductive Event where
  /-- the host supplies a configuration and a ROM -/
  | reset (cfg : Config) (rom : List Byte)
  /-- one instruction cycle, with the byte `rnd` if the environment supplies it, free if not -/
  | instrCycle (rnd : Option Byte)
  /-- the 60 Hz tick -/
  | tick
  /-- the input mapper sets or clears one key of the latch -/
  | keyWrite (k : Nibble) (b : Bool)
  /-- the renderer has consumed the redraw flag -/
  | redrawAck
  deriving DecidableEq, Repr

/-- The machine's state. The first group is the spec's state, each field with its rule; the second is
the model's own rendering of the environment and of the tick arbiter (assumption log 1, 3, 5). -/
structure State where
  /-- V0 to VF (R10, R11) -/
  v : Vector Byte 16
  /-- the index register I (R12) -/
  i : Word
  /-- the program counter (R13) -/
  pc : Word
  /-- the call stack's depth (R14) -/
  sp : Fin 17
  /-- the call stack's storage (R14); entries from STACK_CAPACITY up are unused and stay 0 -/
  stack : Vector Word 16
  /-- the delay timer DT (R15) -/
  dt : Byte
  /-- the sound timer ST (R16) -/
  st : Byte
  /-- the keypad latch (R17) -/
  keys : Vector Bool 16
  /-- the pixel buffer (R18): the linear indexes y * DISPLAY_W + x of the cells that are on, strictly rising -/
  px : List Nat
  /-- the redraw flag (R19) -/
  redraw : Bool
  /-- kw_state (R20) -/
  kwState : KwState
  /-- kw_key (R20) -/
  kwKey : Nibble
  /-- run_state (R21) -/
  runState : RunState
  /-- fault_cause (R21) -/
  faultCause : FaultCause
  /-- the 4096-byte memory (R40) -/
  mem : Memory
  /-- the configuration latched by Reset (R23, R220) -/
  cfg : Config
  /-- the model's own: instruction cycles since the last Tick, the tick arbiter's place in its batch (R201, R202) -/
  batch : Nat
  /-- the model's own: the `rnd` input of the current instruction cycle (R80), none if it is free -/
  rndIn : Option Byte
  /-- the model's own: how many random bytes have been drawn, the argument of the free value (R8, R24) -/
  draws : Nat
  /-- the model's own: the events the environment will issue, oldest first (R49, R80) -/
  pending : List Event
  deriving DecidableEq, Repr

/-- Why a step stops with no next state. -/
inductive Fault where
  /-- Raised by `step` when run_state is Fault and the environment has no event pending: the instruction
  stream and the timers hold until Reset (R192; 93_implementation_defined.md U15, `stuck`). Safe. -/
  | machineStopped
  deriving DecidableEq, Repr

/-- Why a step gives no meaning. -/
inductive Refusal where
  /-- Raised by the arm of an instruction that has no meaning yet; no arm of this model is one. Safe. -/
  | notModelled (mnemonic : String)
  /-- Raised by a Reset event whose configuration breaks the bounds of rules R3 and R4, for which the
  spec gives no behaviour. Safe. -/
  | illFormedConfig
  deriving DecidableEq, Repr

/-- The machine right after reset with `bootConfig` and an empty ROM (70_reset_and_hazards.md rule R223). -/
def State.reset : State where
  v := Vector.replicate 16 0
  i := 0
  pc := entryPoint
  sp := 0
  stack := Vector.replicate 16 0
  dt := 0
  st := 0
  keys := Vector.replicate 16 false
  px := []
  redraw := false
  kwState := .idle
  kwKey := 0
  runState := .running
  faultCause := .none
  mem := []
  cfg := bootConfig
  batch := 0
  rndIn := none
  draws := 0
  pending := []

end Sys2Proof.Machine
end

