-- ==== Sys2Proof/Machine/Ops.lean ====
section
/-! DEFINITION. The named operations over memory, registers, stack and pixel buffer that every meaning
is written with, and raising a fault, the machine's one exceptional entry (spec 20_memory.md,
10_state.md, 60_exceptions.md rules R190, R191). There is no return from a fault (R196): the way out is
the Reset event (Machine/Events.lean). -/

namespace Sys2Proof.Machine

/-- What a step, or one instruction, answers. -/
abbrev Result := Host.Outcome State Fault Refusal

/-! ### Memory (rules R40, R43, R55) -/

/-- MemRead(a, 1): the byte listed for the address, else what an unlisted address holds (R55). -/
def Memory.read : Memory → Nat → Byte
  | [], a => unlisted a
  | (j, c) :: m, a => if a = j then c else Memory.read m a

/-- MemWrite(a, 1, b): sets the byte at a and nothing else, keeping the list in canonical form (R55). -/
def Memory.write : Memory → Nat → Byte → Memory
  | [], a, b => if b = unlisted a then [] else [(a, b)]
  | (j, c) :: m, a, b =>
    if a < j then (if b = unlisted a then (j, c) :: m else (a, b) :: (j, c) :: m)
    else if a = j then (if b = unlisted a then m else (a, b) :: m)
    else (j, c) :: Memory.write m a b

/-- Byte writes at increasing addresses (R43: a multi-byte transfer is a sequence of byte accesses). -/
def Memory.writeBytes (m : Memory) (a : Nat) : List Byte → Memory
  | [] => m
  | b :: bs => Memory.writeBytes (Memory.write m a b) (a + 1) bs

/-- The n bytes at a, a + 1, ... -/
def Memory.readBytes (m : Memory) (a n : Nat) : List Byte :=
  (List.range n).map fun j => Memory.read m (a + j)

/-- The canonical form from address lo on: addresses rise strictly and stay below 4096, and no entry
equals what an unlisted address reads as. -/
def Memory.wfFrom : Nat → Memory → Bool
  | _, [] => true
  | lo, (j, c) :: m => decide (lo ≤ j) && decide (j < memSize) && (c != unlisted j) && Memory.wfFrom (j + 1) m

/-- The memory list is in its canonical form. -/
def Memory.wf (m : Memory) : Bool := Memory.wfFrom 0 m

/-- The 16-bit word at a, high byte first: Fetch16 of R43. None when a > 4094 (R44). -/
def Memory.fetch16 (m : Memory) (a : Word) : Option Word :=
  if a.toNat ≤ 4094 then
    some (wordOfBytes (Memory.read m a.toNat) (Memory.read m (a.toNat + 1)))
  else none

/-! ### Registers (R10) -/

/-- V[x]. -/
def State.reg (s : State) (x : Nibble) : Byte := s.v[x.toNat]'x.isLt

/-- V[x] <- b. -/
def State.setReg (s : State) (x : Nibble) (b : Byte) : State :=
  { s with v := s.v.set x.toNat b x.isLt }

/-- VF, an ordinary register slot that also holds the flag (R11). -/
def regF : Nibble := 0xF

/-- V[0] .. V[x], in order: what FX55 stores (R144). -/
def State.regsUpTo (s : State) (x : Nibble) : List Byte := s.v.toList.take (x.toNat + 1)

/-- V[j] <- MemRead(a + j, 1) for j = 0 .. x; the other registers stay (R145). -/
def State.loadRegs (s : State) (x : Nibble) (a : Nat) : State :=
  { s with v := Vector.ofFn fun j => if j.val ≤ x.toNat then Memory.read s.mem (a + j.val) else s.v[j] }

/-! ### The keypad latch (R17) -/

/-- keys[k]. -/
def State.key (s : State) (k : Nibble) : Bool := s.keys[k.toNat]'k.isLt

/-- The least k from the list with keys[k] = 1. -/
def firstPressed (s : State) : List Nibble → Option Nibble
  | [] => none
  | k :: ks => if s.key k then some k else firstPressed s ks

/-- The sixteen key numbers, rising. -/
def allKeys : List Nibble := [0x0, 0x1, 0x2, 0x3, 0x4, 0x5, 0x6, 0x7, 0x8, 0x9, 0xA, 0xB, 0xC, 0xD, 0xE, 0xF]

/-- The least pressed key, if any (R172). -/
def State.leastPressed (s : State) : Option Nibble := firstPressed s allKeys

/-! ### Faults (R190, R191) -/

/-- The code of a fault cause (R190). -/
def FaultCause.code : FaultCause → Nat
  | .none => 0
  | .stackOverflow => 1
  | .stackUnderflow => 2
  | .fetchOutOfBounds => 3
  | .dataAddressFault => 4
  | .keyIndexFault => 5
  | .romTooLarge => 6

/-- The state a fault leaves: run_state and fault_cause set, all else as it stands (R191). -/
def State.faulted (s : State) (c : FaultCause) : State :=
  { s with runState := .fault, faultCause := c }

/-- `raise F`: the machine's exception entry. The cycle ends in a next state, in the terminal run state
Fault, with none of the instruction's writes performed (R191); nothing is saved and pc is not redirected
(R195). -/
def raise (c : FaultCause) (s : State) : Result := .next (s.faulted c)

/-- `CheckData(lo, hi)` before any access: the instruction goes on when hi <= 4095, else DataAddressFault
(R45). Addresses are natural numbers, never masked. -/
def checkData (hi : Nat) (s : State) (go : Result) : Result :=
  if hi ≤ 4095 then go else raise .dataAddressFault s

/-- `skip` when the condition holds: pc <- pc + 2 on the already advanced pc (R87). -/
def skipIf (c : Bool) (s : State) : Result :=
  if c then .next { s with pc := s.pc + 2 } else .next s

/-! ### The call stack (R14) -/

/-- Push a return address, or raise StackOverflow when the stack is full (R102). -/
def pushThen (w : Word) (s : State) (go : State → State) : Result :=
  if h : s.sp.val < s.cfg.stackCapacity.val then
    have h16 : s.sp.val < 16 := by have := s.cfg.stackCapacity.isLt; omega
    .next (go { s with stack := s.stack.set s.sp.val w h16, sp := ⟨s.sp.val + 1, by omega⟩ })
  else raise .stackOverflow s

/-- Pop a return address, or raise StackUnderflow when the stack is empty (R100). The entry's storage
stays as it was. -/
def popThen (s : State) (go : Word → State → State) : Result :=
  if h : s.sp.val = 0 then raise .stackUnderflow s
  else
    have h16 : s.sp.val - 1 < 16 := by have := s.sp.isLt; omega
    .next (go (s.stack[s.sp.val - 1]'h16) { s with sp := ⟨s.sp.val - 1, by omega⟩ })

/-! ### The pixel buffer (R18) -/

/-- Turn the cell with linear index i over: off becomes on, on becomes off. -/
def toggleCell (i : Nat) : List Nat → List Nat
  | [] => [i]
  | j :: px => if i < j then i :: j :: px else if i = j then px else j :: toggleCell i px

/-- The cell with linear index i is on. -/
def cellOn (px : List Nat) (i : Nat) : Bool := px.contains i

/-- px[y][x] (R18: linear index y * DISPLAY_W + x). -/
def State.pixel (s : State) (x y : Nat) : Bool := cellOn s.px (y * s.cfg.displayW + x)

/-- XOR one sprite bit onto each listed cell in turn, remembering whether a cell that was on went off
(R161). -/
def xorCells : List Nat → List Nat × Bool → List Nat × Bool
  | [], r => r
  | i :: is, (px, hit) => xorCells is (toggleCell i px, hit || cellOn px i)

/-- The pixel buffer's canonical form: indexes rise strictly from lo and stay below the number of cells. -/
def pxWfFrom : Nat → Nat → List Nat → Bool
  | _, _, [] => true
  | lo, n, i :: px => decide (lo ≤ i) && decide (i < n) && pxWfFrom (i + 1) n px

/-! ### The random draw (R8, R176) -/

/-- The byte CXNN draws: the cycle's input `rnd` where the environment supplied one, else the free value. -/
def State.rnd (s : State) : Byte :=
  match s.rndIn with
  | some b => b
  | none => Config.randomByte s.draws

end Sys2Proof.Machine
end

