-- ==== Sys2Proof/Machine/Flags.lean ====
section
/-! DEFINITION. Every flag computation (spec 42_load_and_alu.md rules R126 to R132, 10_state.md rule
R11). The machine's only flag is VF, and a flag value is 0 or 1. -/

namespace Sys2Proof.Machine

/-- A flag as the byte written to VF: 0 or 1 (R11). -/
def flagByte (b : Bool) : Byte := if b then 1 else 0

/-- The carry of 8XY4: the unsigned sum exceeds 255 (R126). -/
def carryOf (a b : Byte) : Bool := decide (255 < a.toNat + b.toNat)

/-- The no-borrow flag of a - b: a >= b before the subtraction (R127, R129). -/
def noBorrow (a b : Byte) : Bool := decide (b.toNat ≤ a.toNat)

/-- The bit 8XY6 shifts out: old bit 0 of the source (R128). -/
def outRight (a : Byte) : Bool := a.getLsbD 0

/-- The bit 8XYE shifts out: old bit 7 of the source (R130). -/
def outLeft (a : Byte) : Bool := a.getLsbD 7

/-- VF <- flag (R131: after the result). -/
def State.setFlag (s : State) (b : Bool) : State := s.setReg regF (flagByte b)

/-- VF <- 0 when Q_VF_RESET, VF untouched otherwise (R123 to R125). -/
def State.resetFlag (s : State) : State := if s.cfg.qVfReset then s.setReg regF 0 else s

end Sys2Proof.Machine
end

