-- ==== Sys2Proof/Machine/Operands.lean ====
section
/-! DEFINITION. How each operand form gets its value (spec 30_encoding.md rules R63, R70;
43_index_and_memory.md; 44_display.md rule R162). -/

namespace Sys2Proof.Machine

/-- NNN as a 16-bit value, zero-extended (R63). -/
def addrWord (nnn : Addr) : Word := nnn.setWidth 16

/-- An 8-bit value as a 16-bit value, zero-extended (R63). -/
def byteWord (b : Byte) : Word := b.setWidth 16

/-- The top digit of NNN, the X field that BNNN also carries (R70). -/
def addrX (nnn : Addr) : Nibble := nnn.extractLsb' 8 4

/-- The base of BNNN: V[X] when Q_JUMP_VX, else V[0] (R107). -/
def State.jumpBase (s : State) (nnn : Addr) : Byte :=
  if s.cfg.qJumpVx then s.reg (addrX nnn) else s.reg 0x0

/-- The source of 8XY6 and 8XYE: V[Y] when Q_SHIFT_VY, else V[X] (R128, R130). -/
def State.shiftSource (s : State) (x y : Nibble) : Byte :=
  if s.cfg.qShiftVy then s.reg y else s.reg x

/-- I after FX55 and FX65: advanced by X + 1 when Q_MEM_INCR (R144, R145). -/
def State.advancedI (s : State) (x : Nibble) : Word :=
  if s.cfg.qMemIncr then s.i + BitVec.ofNat 16 (x.toNat + 1) else s.i

/-- The decimal digits of a byte: hundreds, tens, ones (R143). -/
def decimalDigits (b : Byte) : List Byte := [b / 100, (b / 10) % 10, b % 10]

/-- The address of glyph b of the font: b * 5, the whole byte multiplied (R142). -/
def glyphAddress (b : Byte) : Word := byteWord b * 5

/-- One coordinate on an axis of the given size: kept inside, and beyond the edge dropped when clipping or
wrapped when not (R162). -/
def placeOnAxis (clip : Bool) (size p : Nat) : Option Nat :=
  if p < size then some p else if clip then none else some (p % size)

/-- The columns of the pixels that are on in a sprite row drawn from column x0, leftmost first: bit 7 of
the row is its leftmost pixel (R162). -/
def rowColumns (c : Config) (x0 : Nat) (row : Byte) : List Nat :=
  (List.range 8).filterMap fun col =>
    if row.getLsbD (7 - col) then placeOnAxis c.qClip c.displayW (x0 + col) else none

/-- The cells one sprite row lands on, none when the row is dropped at the bottom edge (R161). -/
def rowCells (c : Config) (x0 y : Nat) (row : Byte) : List Nat :=
  match placeOnAxis c.qClip c.displayH y with
  | some y' => (rowColumns c x0 row).map (y' * c.displayW + ·)
  | none => []

/-- The cells a sprite's rows land on, top row first, from the start position (x0, y) down (R161). -/
def spriteCells (c : Config) (x0 y : Nat) : List Byte → List Nat
  | [] => []
  | row :: rows => rowCells c x0 y row ++ spriteCells c x0 (y + 1) rows

/-- The sprite's start position: (V[X] mod W, V[Y] mod H) under both values of Q_CLIP (R162). -/
def State.spriteStart (s : State) (x y : Nibble) : Nat × Nat :=
  ((s.reg x).toNat % s.cfg.displayW, (s.reg y).toNat % s.cfg.displayH)

/-- The cells DXYN turns over, in its loops' order: the N bytes at I drawn from the start position. -/
def State.drawnCells (s : State) (x y n : Nibble) : List Nat :=
  spriteCells s.cfg (s.spriteStart x y).1 (s.spriteStart x y).2
    (Memory.readBytes s.mem s.i.toNat n.toNat)

end Sys2Proof.Machine
end

