-- ==== Sys2Proof/Machine/Alu.lean ====
section
/-! DEFINITION. The meanings of the register loads and the 8-bit arithmetic and logic (spec
42_load_and_alu.md). Operands are read first, then V[X] is written, then VF (rule R131). -/

namespace Sys2Proof.Machine

/-- 6XNN (R120). -/
def execLdVxByte (x : Nibble) (nn : Byte) (s : State) : Result := .next (s.setReg x nn)

/-- 7XNN (R121): no flag. -/
def execAddVxByte (x : Nibble) (nn : Byte) (s : State) : Result := .next (s.setReg x (s.reg x + nn))

/-- 8XY0 (R122). -/
def execLdVxVy (x y : Nibble) (s : State) : Result := .next (s.setReg x (s.reg y))

/-- 8XY1 (R123). -/
def execOrVxVy (x y : Nibble) (s : State) : Result :=
  .next (s.setReg x (s.reg x ||| s.reg y)).resetFlag

/-- 8XY2 (R124). -/
def execAndVxVy (x y : Nibble) (s : State) : Result :=
  .next (s.setReg x (s.reg x &&& s.reg y)).resetFlag

/-- 8XY3 (R125). -/
def execXorVxVy (x y : Nibble) (s : State) : Result :=
  .next (s.setReg x (s.reg x ^^^ s.reg y)).resetFlag

/-- 8XY4 (R126). -/
def execAddVxVy (x y : Nibble) (s : State) : Result :=
  .next ((s.setReg x (s.reg x + s.reg y)).setFlag (carryOf (s.reg x) (s.reg y)))

/-- 8XY5 (R127). -/
def execSubVxVy (x y : Nibble) (s : State) : Result :=
  .next ((s.setReg x (s.reg x - s.reg y)).setFlag (noBorrow (s.reg x) (s.reg y)))

/-- 8XY6 (R128). -/
def execShrVxVy (x y : Nibble) (s : State) : Result :=
  .next ((s.setReg x (s.shiftSource x y >>> 1)).setFlag (outRight (s.shiftSource x y)))

/-- 8XY7 (R129). -/
def execSubnVxVy (x y : Nibble) (s : State) : Result :=
  .next ((s.setReg x (s.reg y - s.reg x)).setFlag (noBorrow (s.reg y) (s.reg x)))

/-- 8XYE (R130). -/
def execShlVxVy (x y : Nibble) (s : State) : Result :=
  .next ((s.setReg x (s.shiftSource x y <<< 1)).setFlag (outLeft (s.shiftSource x y)))

end Sys2Proof.Machine
end

