-- ==== Sys2Proof/Machine/Devices.lean ====
section
/-! DEFINITION. The meanings of the keypad, timer and random-number instructions (spec
45_keypad_timers_random.md). -/

namespace Sys2Proof.Machine

/-- The key test of EX9E and EXA1: KeyIndexFault when V[X] > 15, else skip when keys[V[X]] is as wanted
(R170, R171). -/
def skipIfKey (want : Bool) (x : Nibble) (s : State) : Result :=
  if (s.reg x).toNat ≤ 15 then skipIf (s.key ((s.reg x).setWidth 4) == want) s
  else raise .keyIndexFault s

/-- EX9E (R170). -/
def execSkpVx (x : Nibble) (s : State) : Result := skipIfKey true x s

/-- EXA1 (R171). -/
def execSknpVx (x : Nibble) (s : State) : Result := skipIfKey false x s

/-- FX07 (R173). -/
def execLdVxDT (x : Nibble) (s : State) : Result := .next (s.setReg x s.dt)

/-- FX0A, waiting for a press: remember the least pressed key, or go on waiting; parked either way (R172). -/
def State.awaitPress (s : State) : State :=
  match s.leastPressed with
  | some k => { s with kwKey := k, kwState := .awaitingRelease, pc := s.pc - 2 }
  | none => { s with kwState := .awaitingPress, pc := s.pc - 2 }

/-- FX0A, waiting for the remembered key's release: parked while it is down, else V[X] gets its number
and the wait is over (R172). -/
def State.awaitRelease (s : State) (x : Nibble) : State :=
  if s.key s.kwKey then { s with pc := s.pc - 2 }
  else { s.setReg x (s.kwKey.setWidth 8) with kwState := .idle }

/-- FX0A (R172). -/
def execLdVxK (x : Nibble) (s : State) : Result :=
  match s.kwState with
  | .idle | .awaitingPress => .next s.awaitPress
  | .awaitingRelease => .next (s.awaitRelease x)

/-- FX15 (R174). -/
def execLdDTVx (x : Nibble) (s : State) : Result := .next { s with dt := s.reg x }

/-- FX18 (R175). -/
def execLdSTVx (x : Nibble) (s : State) : Result := .next { s with st := s.reg x }

/-- CXNN (R176): the drawn byte masked with NN; each execution is one draw (R8). -/
def execRndVxByte (x : Nibble) (nn : Byte) (s : State) : Result :=
  .next { s.setReg x (s.rnd &&& nn) with draws := s.draws + 1 }

end Sys2Proof.Machine
end

