-- ==== Sys2Proof/Machine/Display.lean ====
section
/-! DEFINITION. The meanings of the display instructions (spec 44_display.md). -/

namespace Sys2Proof.Machine

/-- 00E0 (R160): every cell off, and the redraw flag set, also when the buffer was clear. -/
def execCls (s : State) : Result := .next { s with px := [], redraw := true }

/-- The state after the sprite's cells are turned over: pixel buffer, redraw, then VF = collision (R161). -/
def State.drawn (s : State) (cells : List Nat) : State :=
  { s with px := (xorCells cells (s.px, false)).1, redraw := true }.setFlag
    (xorCells cells (s.px, false)).2

/-- DXYN (R161): the range I .. I + N - 1 is checked when N > 0, also for rows that clipping drops. -/
def execDrwVxVy (x y n : Nibble) (s : State) : Result :=
  if n.toNat = 0 then .next (s.drawn [])
  else checkData (s.i.toNat + n.toNat - 1) s (.next (s.drawn (s.drawnCells x y n)))

end Sys2Proof.Machine
end

