-- ==== Sys2Proof/Machine/Flow.lean ====
section
/-! DEFINITION. The meanings of the control-transfer and skip instructions, and of the unrecognized
opcode (spec 41_flow_and_skip.md, 40_instruction_cycle.md rule R85). Each runs on the state FETCH leaves:
pc is already advanced by 2. -/

namespace Sys2Proof.Machine

/-- 00EE (R100): pop the return address into pc; StackUnderflow when sp = 0. -/
def execRet (s : State) : Result := popThen s fun w t => { t with pc := w }

/-- 1NNN (R101). -/
def execJpAddr (nnn : Addr) (s : State) : Result := .next { s with pc := addrWord nnn }

/-- 2NNN (R102): push the advanced pc, then jump; StackOverflow when sp = STACK_CAPACITY. -/
def execCallAddr (nnn : Addr) (s : State) : Result :=
  pushThen s.pc s fun t => { t with pc := addrWord nnn }

/-- 3XNN (R103). -/
def execSeVxByte (x : Nibble) (nn : Byte) (s : State) : Result := skipIf (s.reg x == nn) s

/-- 4XNN (R104). -/
def execSneVxByte (x : Nibble) (nn : Byte) (s : State) : Result := skipIf (s.reg x != nn) s

/-- 5XY0 (R105). -/
def execSeVxVy (x y : Nibble) (s : State) : Result := skipIf (s.reg x == s.reg y) s

/-- 9XY0 (R106). -/
def execSneVxVy (x y : Nibble) (s : State) : Result := skipIf (s.reg x != s.reg y) s

/-- BNNN (R107): a 16-bit sum, not reduced to 12 bits. -/
def execJpV0Addr (nnn : Addr) (s : State) : Result :=
  .next { s with pc := addrWord nnn + byteWord (s.jumpBase nnn) }

/-- An unrecognized opcode (R66, R85): nothing after FETCH. -/
def execUnrecognized (_w : Word) (s : State) : Result := .next s

end Sys2Proof.Machine
end

