-- ==== Sys2Proof/Machine/Index.lean ====
section
/-! DEFINITION. The meanings of the index-register and memory-transfer instructions (spec
43_index_and_memory.md). The whole address range is checked before the first access (20_memory.md rule
R45). -/

namespace Sys2Proof.Machine

/-- ANNN (R140). -/
def execLdIAddr (nnn : Addr) (s : State) : Result := .next { s with i := addrWord nnn }

/-- FX1E (R141): a 16-bit sum, no flag. -/
def execAddIVx (x : Nibble) (s : State) : Result := .next { s with i := s.i + byteWord (s.reg x) }

/-- FX29 (R142). -/
def execLdFVx (x : Nibble) (s : State) : Result := .next { s with i := glyphAddress (s.reg x) }

/-- FX33 (R143). -/
def execLdBVx (x : Nibble) (s : State) : Result :=
  checkData (s.i.toNat + 2) s
    (.next { s with mem := Memory.writeBytes s.mem s.i.toNat (decimalDigits (s.reg x)) })

/-- FX55 (R144). -/
def execDumpVx (x : Nibble) (s : State) : Result :=
  checkData (s.i.toNat + x.toNat) s
    (.next { s with mem := Memory.writeBytes s.mem s.i.toNat (s.regsUpTo x), i := s.advancedI x })

/-- FX65 (R145). -/
def execLoadVx (x : Nibble) (s : State) : Result :=
  checkData (s.i.toNat + x.toNat) s
    (.next { s.loadRegs x s.i.toNat with i := s.advancedI x })

end Sys2Proof.Machine
end

