-- ==== Sys2Proof/Machine/Events.lean ====
section
/-! DEFINITION. The five atomic events (spec 40_instruction_cycle.md rules R80 to R82,
60_exceptions.md rules R198 to R205, 70_reset_and_hazards.md rules R220 to R222), the outputs, and the
tick arbiter's schedule. -/

namespace Sys2Proof.Machine

/-! ### Outputs (R80) -/

/-- tone = (ST != 0) (R199). -/
def State.tone (s : State) : Bool := s.st != 0

/-- fault = (run_state = Fault). -/
def State.faultOut (s : State) : Bool := s.runState == .fault

/-! ### InstrCycle (R81, R82) -/

/-- The cycle begins: it counts towards its batch (R86), and its `rnd` input is latched (R80). -/
def State.beginCycle (s : State) (rnd : Option Byte) : State :=
  { s with batch := s.batch + 1, rndIn := rnd }

/-- FETCH's advance: pc <- pc + 2 before EXECUTE (R82). -/
def State.advancePc (s : State) : State := { s with pc := s.pc + 2 }

/-- FETCH, DECODE, EXECUTE on a state whose cycle has begun. The fetch check comes first and leaves pc
unadvanced (R82, R89). -/
def fetchExecute (s : State) : Result :=
  match Memory.fetch16 s.mem s.pc with
  | some w => exec (decodeWord w) s.advancePc
  | none => raise .fetchOutOfBounds s

/-- One InstrCycle(rnd). -/
def instrCycle (rnd : Option Byte) (s : State) : Result := fetchExecute (s.beginCycle rnd)

/-! ### Tick, KeyWrite, RedrawAck -/

/-- Decrement with a floor at 0 (R198). -/
def countDown (b : Byte) : Byte := if b = 0 then 0 else b - 1

/-- Tick: both timers count down (R198). It ends the arbiter's batch (R201). -/
def tick (s : State) : State := { s with dt := countDown s.dt, st := countDown s.st, batch := 0 }

/-- KeyWrite(k, b): keys[k] <- b (R204). -/
def keyWrite (k : Nibble) (b : Bool) (s : State) : State :=
  { s with keys := s.keys.set k.toNat b k.isLt }

/-- RedrawAck: redraw <- 0 (R205). -/
def redrawAck (s : State) : State := { s with redraw := false }

/-! ### Reset (R220 to R222) -/

/-- The memory with the font at 0 and everything else 0 (R220, R222). The list starts from what unlisted
addresses hold, so the default font lists nothing. -/
def fontMemory (cfg : Config) : Memory := Memory.writeBytes [] 0 cfg.font.toList

/-- The state Reset builds before it looks at the ROM: every field at its reset value, the configuration
latched, the font loaded (R220). What the environment has still to issue and the random source's place
are no state of the block and stay (assumption log 5). -/
def cleared (cfg : Config) (s : State) : State :=
  { State.reset with cfg := cfg, mem := fontMemory cfg, draws := s.draws, pending := s.pending }

/-- Reset(config, rom): a ROM of at most 3584 bytes is copied to 0x200; a longer one leaves the machine in
Fault with cause RomTooLarge and no byte copied (R221). -/
def resetWith (cfg : Config) (rom : List Byte) (s : State) : State :=
  if rom.length ≤ romMax then
    { cleared cfg s with mem := Memory.writeBytes (fontMemory cfg) romBase rom }
  else (cleared cfg s).faulted .romTooLarge

/-! ### Delivering an event, and the schedule (R80, R192, R201) -/

/-- One event of the environment. InstrCycle and Tick are enabled only while Running: in Fault they do not
happen, and the machine holds (R80, R192). -/
def deliver (e : Event) (s : State) : Result :=
  match e with
  | .instrCycle rnd => if s.runState = .running then instrCycle rnd s else .next s
  | .tick => if s.runState = .running then .next (tick s) else .next s
  | .keyWrite k b => .next (keyWrite k b s)
  | .redrawAck => .next (redrawAck s)
  | .reset cfg rom => if cfg.wf then .next (resetWith cfg rom s) else .refused .illFormedConfig

/-- The machine left to its tick arbiter, with no event pending: K instruction cycles, then one Tick, and
so on (R201, R202); stuck in Fault (R192). -/
def scheduled (s : State) : Result :=
  match s.runState with
  | .running => if s.batch < s.cfg.cyclesPerTick then instrCycle none s else .next (tick s)
  | .fault => .fault .machineStopped

/-- One step: the oldest pending event, or the schedule's next event when none is pending. -/
def stepEvent (s : State) : Result :=
  match s.pending with
  | e :: rest => deliver e { s with pending := rest }
  | [] => scheduled s

/-- The events of one frame in the order of R201: key writes, K instruction cycles, one tick, and a
RedrawAck if the renderer took the flag. -/
def frameEvents (cfg : Config) (keyWrites : List (Nibble × Bool)) (ack : Bool) : List Event :=
  keyWrites.map (fun p => Event.keyWrite p.1 p.2) ++
    (List.replicate cfg.cyclesPerTick (Event.instrCycle none) ++
      (Event.tick :: if ack then [Event.redrawAck] else []))

/-! ### Placing an instruction where the next step fetches it -/

/-- A table word of nbits bits, the bits above 0, as the two bytes at pc; and an InstrCycle as the very
next event, so that the next step runs it whatever the schedule (assumption log 6). -/
def placeWord (s : State) (nbits w : Nat) : State :=
  { s with
    mem := if s.pc.toNat ≤ 4094 then
        Memory.writeBytes s.mem s.pc.toNat (bytesOfWord (BitVec.ofNat 16 (w % 2 ^ nbits)))
      else s.mem
    pending := .instrCycle none :: s.pending }

end Sys2Proof.Machine
end

