-- ==== Sys2Proof/Machine/Step.lean ====
section
/-! DEFINITION. One step of the machine: one atomic event (spec 40_instruction_cycle.md rule R80). -/

namespace Sys2Proof.Machine

def step (s : State) : Host.Outcome State Fault Refusal := stepEvent s

/-- The state with the given instruction where `step` fetches its next one, and an instruction cycle due
next. -/
def State.withFetchWord (s : State) (nbits w : Nat) : State := placeWord s nbits w

end Sys2Proof.Machine
end

