-- ==== Sys2Proof/WellFormed.lean ====
section
/-! DEFINITION. Which terms of `Instr` are instructions of the machine. The fields' ranges are in their
types; the one check left is that a word given as unrecognized selects no row of the opcode map
(30_encoding.md rules R65, R66). -/

namespace Sys2Proof

/-- The well-formed instructions. -/
def Instr.wf : Instr → Bool
  | .unrecognized w => !recognized w
  | .cls | .ret | .jpAddr _ | .callAddr _ | .seVxByte _ _ | .sneVxByte _ _ | .seVxVy _ _
  | .ldVxByte _ _ | .addVxByte _ _ | .ldVxVy _ _ | .orVxVy _ _ | .andVxVy _ _ | .xorVxVy _ _
  | .addVxVy _ _ | .subVxVy _ _ | .shrVxVy _ _ | .subnVxVy _ _ | .shlVxVy _ _ | .sneVxVy _ _
  | .ldIAddr _ | .jpV0Addr _ | .rndVxByte _ _ | .drwVxVy _ _ _ | .skpVx _ | .sknpVx _
  | .ldVxDT _ | .ldVxK _ | .ldDTVx _ | .ldSTVx _ | .addIVx _ | .ldFVx _ | .ldBVx _
  | .dumpVx _ | .loadVx _ => true

end Sys2Proof
end

