-- ==== Sys2Proof/Safety.lean ====
section
/-! DEFINITION. The terms claims use: the invariant of the machine, when a state is safe to run, and the
few ways a claim runs instructions or counts words (spec 10_state.md rules R13, R14, R18, R20, R26). -/

namespace Sys2Proof.Machine

/-- What holds at reset and after every step (rule R26 and the rules named at each field). -/
structure State.Inv (s : State) : Prop where
  /-- memory is in its canonical form and lists only addresses 0 to 4095 (R40) -/
  memory : Memory.wf s.mem = true
  /-- the pixel buffer lists, in order, only cells of the W x H grid (R18) -/
  pixels : pxWfFrom 0 (s.cfg.displayW * s.cfg.displayH) s.px = true
  /-- the latched configuration is one the spec admits (R3, R4) -/
  config : s.cfg.wf = true
  /-- 0 <= sp <= STACK_CAPACITY (R14) -/
  depth : s.sp.val ≤ s.cfg.stackCapacity.val
  /-- the storage above STACK_CAPACITY is no state of the machine and stays 0 (R14) -/
  spare : ∀ j : Fin 16, s.cfg.stackCapacity.val ≤ j.val → s.stack[j] = 0
  /-- every return address is an advanced pc, at most 4096 (R13, R102) -/
  returns : ∀ j : Fin 16, s.stack[j].toNat ≤ 0x1000
  /-- pc never overflows: at most 0xFFF + 0xFF (R13) -/
  pcBound : s.pc.toNat ≤ 0x10FE
  /-- fault_cause is 0 exactly while Running (R21, R190) -/
  cause : s.runState = .running ↔ s.faultCause = .none
  /-- a key wait in progress means pc holds the address of its FX0A (R20) -/
  parked : s.kwState ≠ .idle → ∃ x, (Memory.fetch16 s.mem s.pc).map decodeWord = some (.ldVxK x)

/-- A step from this state will run an instruction cycle's instruction: Running, with a legal fetch. -/
def State.canFetch (s : State) : Prop := s.runState = .running ∧ s.pc.toNat ≤ 4094

/-- The instruction whose two bytes lie at pc, high byte first (R43), where the fetch is legal. -/
def State.instrAtPc (s : State) : Instr :=
  decodeWord (BitVec.ofNat 16
    ((Memory.read s.mem s.pc.toNat).toNat * 256 + (Memory.read s.mem (s.pc.toNat + 1)).toNat))

/-- A safe run: it has met no fault so far (R192: no claim about a result holds of a faulted state). -/
def State.safe (s : State) : Prop := s.runState = .running

/-- k steps, stopping at the first that answers no next state. -/
def runSteps : Nat → State → Result
  | 0, s => .next s
  | k + 1, s =>
    match step s with
    | .next t => runSteps k t
    | r => r

/-- Instructions one after another, each on a pc advanced by its own fetch (R82). -/
def execInOrder : List Instr → State → Result
  | [], s => .next s
  | i :: is, s =>
    match exec i s.advancePc with
    | .next t => execInOrder is t
    | r => r

/-- The k-th hexadecimal digit of an opcode, k = 0 the lowest. -/
def digit (w : Word) (k : Nat) : Nat := w.toNat / 16 ^ k % 16

/-- How many of the 4096 words with top digit op select no row of the opcode map. -/
def countUnrecognized (op : Nat) : Nat :=
  (List.range 4096).countP fun k => !recognized (BitVec.ofNat 16 (op * 4096 + k))

/-- The cells the set bits of an N-row sprite at (x0, y0) fall on, row by row and left to right, straight
from R161 and R162: with clipping only those inside the grid, without it all of them, wrapped. -/
def spriteHits (c : Config) (x0 y0 n : Nat) (rows : List Byte) : List Nat :=
  (List.range n).flatMap fun r =>
    (List.range 8).filterMap fun col =>
      if (rows.getD r 0).getLsbD (7 - col) ∧
          (c.qClip = true → x0 + col < c.displayW ∧ y0 + r < c.displayH) then
        some ((y0 + r) % c.displayH * c.displayW + (x0 + col) % c.displayW)
      else none

/-- The cells a DXYN turns over, from the state it runs on. -/
def State.hits (s : State) (x y n : Nibble) : List Nat :=
  spriteHits s.cfg ((s.reg x).toNat % s.cfg.displayW) ((s.reg y).toNat % s.cfg.displayH) n.toNat
    (Memory.readBytes s.mem s.i.toNat n.toNat)

end Sys2Proof.Machine
end

