-- ==== Sys2Proof/Certificates/Slice0/Obligations.lean ====
section
/-! DEFINITION. The statements for the provers, one per `def Obligations.<Name> : Prop`
(OBLIGATIONS.json lists them). Fields of State that are the model's own, and not the spec's, are
`batch`, `rndIn`, `draws` and `pending`. -/

open Sys2Proof Sys2Proof.Machine

/-! ### Encoding -/

/-- One word of each family, written out from the patterns of 30_encoding.md rule R65. -/
def Obligations.SampleWordsDecode : Prop :=
  decodeBytes [0x00, 0xE0] = .ok (.cls, []) ∧ decodeBytes [0x00, 0xEE] = .ok (.ret, []) ∧
  decodeBytes [0x12, 0x34] = .ok (.jpAddr 0x234, []) ∧
  decodeBytes [0x3A, 0x42] = .ok (.seVxByte 0xA 0x42, []) ∧
  decodeBytes [0x80, 0x14] = .ok (.addVxVy 0x0 0x1, []) ∧
  decodeBytes [0x82, 0x3E] = .ok (.shlVxVy 0x2 0x3, []) ∧
  decodeBytes [0xB3, 0x00] = .ok (.jpV0Addr 0x300, []) ∧
  decodeBytes [0xD1, 0x25] = .ok (.drwVxVy 0x1 0x2 0x5, []) ∧
  decodeBytes [0xE0, 0x9E] = .ok (.skpVx 0x0, []) ∧
  decodeBytes [0xF3, 0x0A] = .ok (.ldVxK 0x3, []) ∧
  decodeBytes [0xF2, 0x55] = .ok (.dumpVx 0x2, []) ∧
  decodeBytes [0x51, 0x21] = .ok (.unrecognized 0x5121, []) ∧
  decodeBytes [0x12] = .error .truncated

/-- Every well-formed instruction, whatever its operands, is read back from its own two bytes, and
nothing after them is consumed. -/
def Obligations.DecodeInvertsEncode : Prop :=
  ∀ (i : Instr) (rest : List Byte), i.wf = true →
    decodeBytes (encodeBytes i ++ rest) = .ok (i, rest)

/-- Every word decodes, to a well-formed instruction whose encoding is that word again: no two words
have one meaning, and no word is rejected. -/
def Obligations.EncodeInvertsDecode : Prop :=
  (∀ w : Word, (decodeWord w).wf = true ∧ encode (decodeWord w) = w) ∧
  ∀ (hi lo : Byte) (rest : List Byte),
    ∃ i, decodeBytes (hi :: lo :: rest) = .ok (i, rest) ∧ encodeBytes i = [hi, lo]

/-- The opcode map of rule R65 by mask and match, with the fields at the digit positions of rule R61
(D7), and no two rows selecting one word. -/
def Obligations.DecodeFollowsOpcodeMap : Prop :=
  (∀ w : Word,
    let x : Nibble := BitVec.ofNat 4 (digit w 2)
    let y : Nibble := BitVec.ofNat 4 (digit w 1)
    let n : Nibble := BitVec.ofNat 4 (digit w 0)
    let nn : Byte := BitVec.ofNat 8 (w.toNat % 256)
    let nnn : Addr := BitVec.ofNat 12 (w.toNat % 4096)
    (w = 0x00E0 → decodeWord w = .cls) ∧
    (w = 0x00EE → decodeWord w = .ret) ∧
    (w &&& 0xF000 = 0x1000 → decodeWord w = .jpAddr nnn) ∧
    (w &&& 0xF000 = 0x2000 → decodeWord w = .callAddr nnn) ∧
    (w &&& 0xF000 = 0x3000 → decodeWord w = .seVxByte x nn) ∧
    (w &&& 0xF000 = 0x4000 → decodeWord w = .sneVxByte x nn) ∧
    (w &&& 0xF00F = 0x5000 → decodeWord w = .seVxVy x y) ∧
    (w &&& 0xF000 = 0x6000 → decodeWord w = .ldVxByte x nn) ∧
    (w &&& 0xF000 = 0x7000 → decodeWord w = .addVxByte x nn) ∧
    (w &&& 0xF00F = 0x8000 → decodeWord w = .ldVxVy x y) ∧
    (w &&& 0xF00F = 0x8001 → decodeWord w = .orVxVy x y) ∧
    (w &&& 0xF00F = 0x8002 → decodeWord w = .andVxVy x y) ∧
    (w &&& 0xF00F = 0x8003 → decodeWord w = .xorVxVy x y) ∧
    (w &&& 0xF00F = 0x8004 → decodeWord w = .addVxVy x y) ∧
    (w &&& 0xF00F = 0x8005 → decodeWord w = .subVxVy x y) ∧
    (w &&& 0xF00F = 0x8006 → decodeWord w = .shrVxVy x y) ∧
    (w &&& 0xF00F = 0x8007 → decodeWord w = .subnVxVy x y) ∧
    (w &&& 0xF00F = 0x800E → decodeWord w = .shlVxVy x y) ∧
    (w &&& 0xF00F = 0x9000 → decodeWord w = .sneVxVy x y) ∧
    (w &&& 0xF000 = 0xA000 → decodeWord w = .ldIAddr nnn) ∧
    (w &&& 0xF000 = 0xB000 → decodeWord w = .jpV0Addr nnn) ∧
    (w &&& 0xF000 = 0xC000 → decodeWord w = .rndVxByte x nn) ∧
    (w &&& 0xF000 = 0xD000 → decodeWord w = .drwVxVy x y n) ∧
    (w &&& 0xF0FF = 0xE09E → decodeWord w = .skpVx x) ∧
    (w &&& 0xF0FF = 0xE0A1 → decodeWord w = .sknpVx x) ∧
    (w &&& 0xF0FF = 0xF007 → decodeWord w = .ldVxDT x) ∧
    (w &&& 0xF0FF = 0xF00A → decodeWord w = .ldVxK x) ∧
    (w &&& 0xF0FF = 0xF015 → decodeWord w = .ldDTVx x) ∧
    (w &&& 0xF0FF = 0xF018 → decodeWord w = .ldSTVx x) ∧
    (w &&& 0xF0FF = 0xF01E → decodeWord w = .addIVx x) ∧
    (w &&& 0xF0FF = 0xF029 → decodeWord w = .ldFVx x) ∧
    (w &&& 0xF0FF = 0xF033 → decodeWord w = .ldBVx x) ∧
    (w &&& 0xF0FF = 0xF055 → decodeWord w = .dumpVx x) ∧
    (w &&& 0xF0FF = 0xF065 → decodeWord w = .loadVx x) ∧
    (recognized w = false → decodeWord w = .unrecognized w)) ∧
  opcodeMap.Pairwise (fun r r' => ∀ w, ¬ (r.selects w = true ∧ r'.selects w = true))

/-- The unrecognized words are exactly the six families of rule R66's table, with its counts, and each
executes as a no-operation, never a fault. That 5XYn and 9XYn with n not 0 are among them is the spec's
decision D8. -/
def Obligations.UnrecognizedWordsAreListedNoOps : Prop :=
  (∀ w : Word,
    decodeWord w = .unrecognized w ↔
      (digit w 3 = 0x0 ∧ w ≠ 0x00E0 ∧ w ≠ 0x00EE) ∨
      (digit w 3 = 0x5 ∧ digit w 0 ≠ 0) ∨
      (digit w 3 = 0x8 ∧ digit w 0 ∈ [0x8, 0x9, 0xA, 0xB, 0xC, 0xD, 0xF]) ∨
      (digit w 3 = 0x9 ∧ digit w 0 ≠ 0) ∨
      (digit w 3 = 0xE ∧ w.toNat % 256 ∉ [0x9E, 0xA1]) ∨
      (digit w 3 = 0xF ∧
        w.toNat % 256 ∉ [0x07, 0x0A, 0x15, 0x18, 0x1E, 0x29, 0x33, 0x55, 0x65])) ∧
  (∀ w : Word, decodeWord w = .unrecognized w ↔ recognized w = false) ∧
  (List.range 16).map countUnrecognized =
    [4094, 0, 0, 0, 0, 3840, 0, 0, 1792, 3840, 0, 0, 0, 0, 4064, 3952] ∧
  4094 + 3840 + 1792 + 3840 + 4064 + 3952 = 21582 ∧
  ∀ (w : Word) (s : State), decodeWord w = .unrecognized w → exec (decodeWord w) s = .next s

/-! ### The instruction cycle and the step -/

/-- FETCH (rule R82): the bounds test, the big-endian read, pc advanced by 2 before EXECUTE; a fetch out
of bounds leaves pc and everything else, but the run state, as it was (the spec's decision D10). `batch` and `rndIn` are the model's
own record that a cycle has begun. -/
def Obligations.FetchReadsBigEndianAndAdvances : Prop :=
  ∀ (s : State) (rnd : Option Byte),
    (s.pc.toNat ≤ 4094 →
      instrCycle rnd s =
        exec (decodeWord (BitVec.ofNat 16
            ((Memory.read s.mem s.pc.toNat).toNat * 256 +
              (Memory.read s.mem (s.pc.toNat + 1)).toNat)))
          { s with pc := s.pc + 2, batch := s.batch + 1, rndIn := rnd }) ∧
    (4094 < s.pc.toNat →
      instrCycle rnd s =
        .next { s with runState := .fault, faultCause := .fetchOutOfBounds,
                       batch := s.batch + 1, rndIn := rnd })

/-- A step runs the instruction decoded from the two bytes at pc: as the environment's next event is an
InstrCycle, or, with no event pending, as the batch of K cycles is not used up (log 5). Around `exec` the
step advances pc by 2, counts the cycle and latches its `rnd` input. -/
def Obligations.StepRunsDecodedInstruction : Prop :=
  ∀ (s : State) (i : Instr), s.runState = .running → s.pc.toNat ≤ 4094 →
    decodeBytes [Memory.read s.mem s.pc.toNat, Memory.read s.mem (s.pc.toNat + 1)] = .ok (i, []) →
    (s.pending = [] → s.batch < s.cfg.ips / 60 →
      step s = exec i { s with pc := s.pc + 2, batch := s.batch + 1, rndIn := none }) ∧
    (∀ rnd rest, s.pending = .instrCycle rnd :: rest →
      step s = exec i { s with pc := s.pc + 2, batch := s.batch + 1, rndIn := rnd, pending := rest })

/-- A word placed by withFetchWord is the instruction the very next step runs (log 6). -/
def Obligations.PlacedWordRunsNext : Prop :=
  ∀ (s : State) (w : Nat), s.runState = .running → s.pc.toNat ≤ 4094 → Memory.wf s.mem = true →
    w < 65536 →
    decodeTableWord 16 w = some (decodeWord (BitVec.ofNat 16 w)) ∧
    step (s.withFetchWord 16 w) =
      exec (decodeWord (BitVec.ofNat 16 w))
        { s with mem := (s.withFetchWord 16 w).mem, pc := s.pc + 2, batch := s.batch + 1,
                 rndIn := none }

/-- The K cycles of a batch and then its Tick (R202, R201): left to itself from the start of a batch, a
machine that stays Running has run as many cycles as steps, up to K = floor(IPS / 60), and the step
after the K-th cycle is a Tick; K never changes, and with IPS < 60 no instruction ever executes.
The order is the spec's decision D18, the rounding D4, the counter `batch` the model's (log 5). -/
def Obligations.BatchRunsKCyclesThenTicks : Prop :=
  ∀ (s t : State) (k : Nat), s.runState = .running → s.pending = [] → s.batch = 0 →
    k ≤ s.cfg.ips / 60 → runSteps k s = .next t → t.runState = .running →
      t.batch = k ∧ t.pending = [] ∧ t.cfg = s.cfg ∧
      (k < s.cfg.ips / 60 → step t = instrCycle none t) ∧
      (k = s.cfg.ips / 60 → step t = .next (tick t) ∧ (tick t).batch = 0) ∧
      (s.cfg.ips < 60 → t = s ∧ step t = .next (tick t))

/-! ### The other events -/

/-- Tick (rule R198): both timers decrement, floor at 0, and nothing else of the spec's state changes; a
value v reaches 0 after exactly v ticks. `batch` is the arbiter's own count, `pending` the environment's
queue. -/
def Obligations.TickDecrementsBothTimers : Prop :=
  (∀ (s : State) (rest : List Event), s.runState = .running → s.pending = .tick :: rest →
    step s = .next { s with dt := BitVec.ofNat 8 (s.dt.toNat - 1),
                            st := BitVec.ofNat 8 (s.st.toNat - 1), batch := 0, pending := rest }) ∧
  ∀ (s : State) (n : Nat),
    ((tick^[n] s).dt = 0 ↔ s.dt.toNat ≤ n) ∧ ((tick^[n] s).st = 0 ↔ s.st.toNat ≤ n)

/-- n ticks take n off each timer, stopping at 0, touch neither pc nor the key wait, and the tone output
sounds exactly as long as ST is not used up (60_exceptions.md section 4). -/
def Obligations.TimersCountDownUnderTicks : Prop :=
  ∀ (s : State) (n : Nat),
    (tick^[n] s).dt.toNat = s.dt.toNat - n ∧ (tick^[n] s).st.toNat = s.st.toNat - n ∧
    ((tick^[n] s).tone = true ↔ n < s.st.toNat) ∧
    (tick^[n] s).pc = s.pc ∧ (tick^[n] s).kwState = s.kwState

/-- KeyWrite(k, b) (rule R204): keys[k] <- b and nothing else, in every run state. -/
def Obligations.KeyWriteSetsOneKey : Prop :=
  ∀ (s : State) (k : Nibble) (b : Bool) (rest : List Event), s.pending = .keyWrite k b :: rest →
    ∃ t, step s = .next t ∧ (∀ j, t.key j = if j = k then b else s.key j) ∧
      t = { s with keys := t.keys, pending := rest }

/-- RedrawAck (rule R205): redraw <- 0 and nothing else, in every run state; the next 00E0 or DXYN sets
it again. -/
def Obligations.RedrawAckClearsRedraw : Prop :=
  (∀ (s : State) (rest : List Event), s.pending = .redrawAck :: rest →
    step s = .next { s with redraw := false, pending := rest }) ∧
  ∀ (s t : State) (x y n : Nibble),
    (exec .cls s = .next t → t.redraw = true) ∧
    (exec (.drwVxVy x y n) s = .next t → s.runState = .running → t.runState = .running →
      t.redraw = true)

/-- Reset(config, rom) with an admitted configuration (R220, R222): every field at its reset value, the
configuration latched, memory 0 but for the font at 0 to 79 and, when it fits, the ROM at 0x200; when it
does not fit only run_state and fault_cause differ and no ROM byte is copied (R221; that lengths 0 and 3584
fit is the spec's decision D30). That a Reset keeps `pending` and `draws`, and clears `rndIn` and `batch`,
is the model's choice (log 5). -/
def Obligations.ResetBuildsWholeState : Prop :=
  ∀ (s : State) (cfg : Config) (rom : List Byte) (rest : List Event),
    s.pending = .reset cfg rom :: rest → cfg.wf = true →
    ∃ t, step s = .next t ∧
      t = { v := Vector.replicate 16 0, i := 0, pc := 0x200, sp := 0, stack := Vector.replicate 16 0,
            dt := 0, st := 0, keys := Vector.replicate 16 false, px := [], redraw := false,
            kwState := .idle, kwKey := 0,
            runState := if rom.length ≤ 3584 then .running else .fault,
            faultCause := if rom.length ≤ 3584 then .none else .romTooLarge, mem := t.mem,
            cfg := cfg, batch := 0, rndIn := none, draws := s.draws, pending := rest } ∧
      Memory.wf t.mem = true ∧
      ∀ a, a < 4096 → Memory.read t.mem a =
        if h : a < 80 then cfg.font[a]
        else if rom.length ≤ 3584 ∧ 0x200 ≤ a ∧ a < 0x200 + rom.length then rom.getD (a - 0x200) 0
        else 0

/-- The ROM load's length rule (R221): above 3584 bytes nothing is copied and the machine is in Fault
with cause RomTooLarge (code 6), and no cycle can run; otherwise the bytes lie at 0x200 and the machine
is Running. -/
def Obligations.ResetRejectsOversizedRom : Prop :=
  ∀ (s : State) (cfg : Config) (rom : List Byte) (rest : List Event),
    s.pending = .reset cfg rom :: rest → cfg.wf = true →
    ∃ t, step s = .next t ∧ t.pending = rest ∧
      (3584 < rom.length →
        t.runState = .fault ∧ t.faultCause = .romTooLarge ∧ FaultCause.code .romTooLarge = 6 ∧
        t.pc = 0x200 ∧ (∀ j, j < 3584 → Memory.read t.mem (0x200 + j) = 0) ∧
        ∀ rnd, deliver (.instrCycle rnd) t = .next t) ∧
      (rom.length ≤ 3584 →
        t.runState = .running ∧ t.faultCause = .none ∧
        ∀ j, j < rom.length → Memory.read t.mem (0x200 + j) = rom.getD j 0)

/-- The state at the first cycle (R223's table) for State.reset, which is Reset with the configuration
`bootConfig`: the spec's defaults, and IPS and the switches as log 2 names them. -/
def Obligations.ResetStateHasTheListedValues : Prop :=
  (∀ x, State.reset.reg x = 0) ∧ State.reset.i = 0 ∧ State.reset.pc = 0x200 ∧
  State.reset.sp = 0 ∧ (∀ j : Fin 16, State.reset.stack[j] = 0) ∧
  State.reset.dt = 0 ∧ State.reset.st = 0 ∧ State.reset.tone = false ∧
  (∀ k, State.reset.key k = false) ∧ (∀ x y, State.reset.pixel x y = false) ∧
  State.reset.redraw = false ∧ State.reset.kwState = .idle ∧ State.reset.kwKey = 0 ∧
  State.reset.runState = .running ∧ State.reset.faultCause = .none ∧
  (∀ j : Fin 80, Memory.read State.reset.mem j.val = State.reset.cfg.font[j]) ∧
  (∀ a, 80 ≤ a → a < 4096 → Memory.read State.reset.mem a = 0) ∧
  State.reset.cfg.stackCapacity = 12 ∧ State.reset.cfg.displayW = 64 ∧
  State.reset.cfg.displayH = 32 ∧ resetWith bootConfig [] State.reset = State.reset

/-! ### Faults -/

/-- The fault state is terminal (R192; that the timers hold too is D15): while it lasts no event but Reset
changes anything except keys and redraw, InstrCycle and Tick change nothing, and with no event pending
the machine is stuck. -/
def Obligations.FaultStateIsTerminal : Prop :=
  ∀ s : State, s.runState = .fault →
    (∀ t, step s = .next t → (∀ cfg rom, s.pending.head? ≠ some (.reset cfg rom)) →
      t = { s with keys := t.keys, redraw := t.redraw, pending := t.pending }) ∧
    (∀ rnd rest, s.pending = .instrCycle rnd :: rest → step s = .next { s with pending := rest }) ∧
    (∀ rest, s.pending = .tick :: rest → step s = .next { s with pending := rest }) ∧
    (s.pending = [] → step s = .fault .machineStopped)

/-- A faulting instruction has performed none of its writes (R191; pc keeps the fetch's advance, D15):
the state EXECUTE was given is left as it was but for run_state and fault_cause. -/
def Obligations.FaultingInstructionWritesNothing : Prop :=
  ∀ (i : Instr) (s t : State), s.runState = .running → exec i s = .next t → t.runState = .fault →
    t = { s with runState := .fault, faultCause := t.faultCause } ∧
    t.faultCause ∈ [.stackOverflow, .stackUnderflow, .dataAddressFault, .keyIndexFault]

/-- Which instruction faults, when, and with which cause, and that no other does (the table of R190, whose
codes and faults 4 and 5 are the spec's own choice, D11, D13, D14; one check per instruction, R89). -/
def Obligations.FaultsAreExactlyTheListedOnes : Prop :=
  ∀ (i : Instr) (s : State), s.runState = .running → s.faultCause = .none →
    ∃ t, exec i s = .next t ∧
      (t.faultCause = .stackUnderflow ↔ i = .ret ∧ s.sp = 0) ∧
      (t.faultCause = .stackOverflow ↔
        ∃ nnn, i = .callAddr nnn ∧ s.cfg.stackCapacity.val ≤ s.sp.val) ∧
      (t.faultCause = .keyIndexFault ↔
        ∃ x, (i = .skpVx x ∨ i = .sknpVx x) ∧ 15 < (s.reg x).toNat) ∧
      (t.faultCause = .dataAddressFault ↔
        (∃ x, i = .ldBVx x ∧ 4095 < s.i.toNat + 2) ∨
        (∃ x, (i = .dumpVx x ∨ i = .loadVx x) ∧ 4095 < s.i.toNat + x.toNat) ∨
        ∃ x y n, i = .drwVxVy x y n ∧ 0 < n.toNat ∧ 4095 < s.i.toNat + n.toNat - 1) ∧
      t.faultCause ≠ .fetchOutOfBounds ∧ t.faultCause ≠ .romTooLarge ∧
      (t.runState = .running ↔ t.faultCause = .none) ∧
      [FaultCause.none, .stackOverflow, .stackUnderflow, .fetchOutOfBounds, .dataAddressFault,
        .keyIndexFault, .romTooLarge].map FaultCause.code = [0, 1, 2, 3, 4, 5, 6]

/-! ### Invariants and whole-machine rules -/

/-- The invariant holds at reset. -/
def Obligations.InvariantHoldsAtReset : Prop := State.reset.Inv

/-- Every step from a state with the invariant, whatever event comes next, gives a state with it:
memory and pixel buffer stay canonical and in range, 0 <= sp <= STACK_CAPACITY, return addresses and pc
stay in the ranges of R13, fault_cause is 0 exactly while Running, and a key wait in progress has its FX0A
at pc. -/
def Obligations.StepKeepsInvariant : Prop :=
  ∀ s t : State, s.Inv → step s = .next t → t.Inv

/-- The configuration is held constant from Reset to the next Reset (rule R23). -/
def Obligations.ConfigurationHeldUntilReset : Prop :=
  ∀ s t : State, step s = .next t →
    (∀ cfg rom, s.pending.head? ≠ some (.reset cfg rom)) → t.cfg = s.cfg

/-- Who writes what (rule R25): InstrCycle everything except keys, Tick only the timers, KeyWrite only
keys, RedrawAck only redraw, Reset everything (none of the old state decides the new one, but for the
model's own `draws`). `pending` is the queue the event is taken from, `batch` the arbiter's count. -/
def Obligations.EventsWriteOnlyTheirState : Prop :=
  ∀ (s t : State) (e : Event) (rest : List Event), s.pending = e :: rest → step s = .next t →
    match e with
    | .instrCycle _ => t.keys = s.keys
    | .tick => t = { s with dt := t.dt, st := t.st, batch := t.batch, pending := rest }
    | .keyWrite _ _ => t = { s with keys := t.keys, pending := rest }
    | .redrawAck => t = { s with redraw := t.redraw, pending := rest }
    | .reset _ _ => ∀ s' : State, s'.pending = s.pending → s'.draws = s.draws → step s' = .next t

/-- The read/write table of 10_state.md section 1, outside the general registers, and the fault state: which
instruction may change each piece of state. pc is the one FETCH has already advanced, and an instruction
that may change run_state or fault_cause is one of the table of R190. The general registers are in
RegistersChangeOnlyAsDestination, the addresses FX33 and FX55 store to in BcdStoresThreeDigits and
DumpStoresRegisters. -/
def Obligations.InstructionsWriteOnlyTheirState : Prop :=
  ∀ (i : Instr) (s t : State), exec i s = .next t →
    t.keys = s.keys ∧ t.cfg = s.cfg ∧ t.batch = s.batch ∧ t.rndIn = s.rndIn ∧
    t.pending = s.pending ∧
    (t.mem ≠ s.mem → ∃ x, i = .ldBVx x ∨ i = .dumpVx x) ∧
    (t.px ≠ s.px ∨ t.redraw ≠ s.redraw → i = .cls ∨ ∃ x y n, i = .drwVxVy x y n) ∧
    (t.stack ≠ s.stack → ∃ nnn, i = .callAddr nnn) ∧
    (t.sp ≠ s.sp → i = .ret ∨ ∃ nnn, i = .callAddr nnn) ∧
    (t.dt ≠ s.dt → ∃ x, i = .ldDTVx x) ∧
    (t.st ≠ s.st → ∃ x, i = .ldSTVx x) ∧
    (t.kwState ≠ s.kwState ∨ t.kwKey ≠ s.kwKey → ∃ x, i = .ldVxK x) ∧
    (t.i ≠ s.i → (∃ nnn, i = .ldIAddr nnn) ∨ (∃ x, i = .addIVx x) ∨ (∃ x, i = .ldFVx x) ∨
      s.cfg.qMemIncr = true ∧ ∃ x, i = .dumpVx x ∨ i = .loadVx x) ∧
    (t.pc ≠ s.pc → i = .ret ∨ (∃ nnn, i = .jpAddr nnn ∨ i = .callAddr nnn ∨ i = .jpV0Addr nnn) ∨
      (∃ x nn, i = .seVxByte x nn ∨ i = .sneVxByte x nn) ∨
      (∃ x y, i = .seVxVy x y ∨ i = .sneVxVy x y) ∨
      ∃ x, i = .skpVx x ∨ i = .sknpVx x ∨ i = .ldVxK x) ∧
    (t.runState ≠ s.runState ∨ t.faultCause ≠ s.faultCause →
      i = .ret ∨ (∃ nnn, i = .callAddr nnn) ∨ (∃ x y n, i = .drwVxVy x y n) ∨
      ∃ x, i = .skpVx x ∨ i = .sknpVx x ∨ i = .ldBVx x ∨ i = .dumpVx x ∨ i = .loadVx x) ∧
    (t.draws ≠ s.draws → ∃ x nn, i = .rndVxByte x nn)

/-- The read/write table's registers: a register changes only as an instruction's destination X, as VF by
an instruction that writes a flag, or as one of V0 to VX by FX65. -/
def Obligations.RegistersChangeOnlyAsDestination : Prop :=
  ∀ (i : Instr) (s t : State) (r : Nibble), exec i s = .next t → t.reg r ≠ s.reg r →
    (∃ nn, i = .ldVxByte r nn ∨ i = .addVxByte r nn ∨ i = .rndVxByte r nn) ∨
    (∃ y, i = .ldVxVy r y) ∨ i = .ldVxDT r ∨ i = .ldVxK r ∨
    (∃ x, i = .loadVx x ∧ r.toNat ≤ x.toNat) ∨
    (∃ x y, (r = x ∨ r = 0xF ∧ s.cfg.qVfReset = true) ∧
      (i = .orVxVy x y ∨ i = .andVxVy x y ∨ i = .xorVxVy x y)) ∨
    (∃ x y, (r = x ∨ r = 0xF) ∧
      (i = .addVxVy x y ∨ i = .subVxVy x y ∨ i = .subnVxVy x y ∨ i = .shrVxVy x y ∨
        i = .shlVxVy x y)) ∨
    (r = 0xF ∧ ∃ x y n, i = .drwVxVy x y n)

/-- VF is clobbered (rule R225): every 8XY4, 8XY5, 8XY6, 8XY7, 8XYE and every DXYN that completes leaves
VF 0 or 1 whatever X is, and 8XY1, 8XY2, 8XY3 leave it 0 when Q_VF_RESET is true: with X = F the result is
lost to the flag.
That the flag wins is the spec's decision D16. -/
def Obligations.FlagWritesClobberVF : Prop :=
  ∀ (s t : State) (x y n : Nibble) (i : Instr), exec i s = .next t →
    (i ∈ [.addVxVy x y, .subVxVy x y, .shrVxVy x y, .subnVxVy x y, .shlVxVy x y] →
      t.reg 0xF = 0 ∨ t.reg 0xF = 1) ∧
    (i = .drwVxVy x y n → s.runState = .running → t.runState = .running →
      t.reg 0xF = 0 ∨ t.reg 0xF = 1) ∧
    (i ∈ [.orVxVy x y, .andVxVy x y, .xorVxVy x y] → s.cfg.qVfReset = true → t.reg 0xF = 0)

/-! ### Memory and registers -/

/-- MemWrite sets the byte at its address and changes nothing else, and keeps the canonical form
(rule R55). -/
def Obligations.MemoryWriteSetsOneByte : Prop :=
  ∀ (m : Memory) (a b : Nat) (v : Byte), Memory.wf m = true → a ≤ 4095 →
    Memory.read (Memory.write m a v) b = (if b = a then v else Memory.read m b) ∧
    Memory.wf (Memory.write m a v) = true

/-- In the canonical form two memories that read the same everywhere are the same list. -/
def Obligations.EqualReadsMeanEqualMemories : Prop :=
  ∀ m m' : Memory, Memory.wf m = true → Memory.wf m' = true →
    (∀ a, a < 4096 → Memory.read m a = Memory.read m' a) → m = m'

/-- A store into the word at pc is what the very next cycle fetches and executes (self-modifying code,
20_memory.md section 4): V0, V1 dumped at the advanced pc. -/
def Obligations.StoreIsSeenByTheNextFetch : Prop :=
  ∀ (s : State) (rnd : Option Byte), s.runState = .running → Memory.wf s.mem = true → s.i = s.pc →
    s.pc.toNat ≤ 4094 →
    ∃ t, exec (.dumpVx 0x1) s = .next t ∧
      instrCycle rnd t =
        exec (decodeWord (BitVec.ofNat 16 ((s.reg 0x0).toNat * 256 + (s.reg 0x1).toNat)))
          { t with pc := s.pc + 2, batch := t.batch + 1, rndIn := rnd }

/-! ### Control transfer and skips -/

/-- 00EE (rule R100): StackUnderflow when sp = 0, else sp <- sp - 1 and pc <- stack[sp], the entry's storage
left as it was. -/
def Obligations.ReturnPopsTheReturnAddress : Prop :=
  ∀ s : State,
    (s.sp = 0 → exec .ret s = .next { s with runState := .fault, faultCause := .stackUnderflow }) ∧
    (∀ j : Fin 16, s.sp.val = j.val + 1 →
      exec .ret s = .next { s with sp := ⟨j.val, by omega⟩, pc := s.stack[j] })

/-- 1NNN (rule R101): pc <- NNN zero-extended, and nothing else. -/
def Obligations.JumpSetsPc : Prop :=
  ∀ (s : State) (nnn : Addr),
    exec (.jpAddr nnn) s = .next { s with pc := BitVec.ofNat 16 nnn.toNat }

/-- 2NNN (rule R102): StackOverflow at STACK_CAPACITY, else stack[sp] <- the advanced pc, sp <- sp + 1,
pc <- NNN. -/
def Obligations.CallPushesTheAdvancedPc : Prop :=
  ∀ (s : State) (nnn : Addr),
    (s.sp.val = s.cfg.stackCapacity.val →
      exec (.callAddr nnn) s =
        .next { s with runState := .fault, faultCause := .stackOverflow }) ∧
    (∀ h : s.sp.val < s.cfg.stackCapacity.val,
      exec (.callAddr nnn) s =
        .next { s with stack := s.stack.set s.sp.val s.pc (by have := s.cfg.stackCapacity.isLt; omega)
                       sp := ⟨s.sp.val + 1, by have := s.cfg.stackCapacity.isLt; omega⟩
                       pc := BitVec.ofNat 16 nnn.toNat })

/-- 3XNN and 4XNN (rules R103, R104): pc moves on by 2 more exactly when V[X] = NN, or not. -/
def Obligations.SkipOnByteCompare : Prop :=
  ∀ (s : State) (x : Nibble) (nn : Byte),
    exec (.seVxByte x nn) s =
      .next { s with pc := if (s.reg x).toNat = nn.toNat then s.pc + 2 else s.pc } ∧
    exec (.sneVxByte x nn) s =
      .next { s with pc := if (s.reg x).toNat = nn.toNat then s.pc else s.pc + 2 }

/-- 5XY0 and 9XY0 (rules R105, R106); with X = Y the first always skips and the second never. -/
def Obligations.SkipOnRegisterCompare : Prop :=
  ∀ (s : State) (x y : Nibble),
    exec (.seVxVy x y) s =
      .next { s with pc := if (s.reg x).toNat = (s.reg y).toNat then s.pc + 2 else s.pc } ∧
    exec (.sneVxVy x y) s =
      .next { s with pc := if (s.reg x).toNat = (s.reg y).toNat then s.pc else s.pc + 2 } ∧
    exec (.seVxVy x x) s = .next { s with pc := s.pc + 2 } ∧
    exec (.sneVxVy x x) s = .next s

/-- BNNN (rule R107): NNN plus V[X] (X the top digit of NNN) when Q_JUMP_VX, plus V0 when not, as a 16-bit
sum that never wraps, at most 0x10FE. -/
def Obligations.IndexedJumpAddsTheBase : Prop :=
  ∀ (s : State) (nnn : Addr),
    let base := if s.cfg.qJumpVx = true then s.reg (BitVec.ofNat 4 (nnn.toNat / 256)) else s.reg 0x0
    exec (.jpV0Addr nnn) s = .next { s with pc := BitVec.ofNat 16 (nnn.toNat + base.toNat) } ∧
    nnn.toNat + base.toNat ≤ 0x10FE

/-- An unrecognized opcode's EXECUTE changes nothing, so the cycle's whole effect is pc <- pc + 2
(rule R85; `batch` and `rndIn` are the model's record of the cycle). -/
def Obligations.UnrecognizedOpcodeOnlyAdvancesPc : Prop :=
  (∀ (s : State) (w : Word), exec (.unrecognized w) s = .next s) ∧
  ∀ (s : State) (rnd : Option Byte) (w : Word), Memory.fetch16 s.mem s.pc = some w →
    recognized w = false →
    instrCycle rnd s = .next { s with pc := s.pc + 2, batch := s.batch + 1, rndIn := rnd }

/-- N nested calls and N returns give back sp, the entries in use and the pc value at the first call's
execute phase, its address plus 2 (90_conflicts.md C5); one call more than fits raises StackOverflow. -/
def Obligations.NestedCallsReturn : Prop :=
  ∀ (targets : List Addr) (s : State),
    s.sp.val + targets.length ≤ s.cfg.stackCapacity.val →
    (∃ t, execInOrder
        (targets.map Instr.callAddr ++ List.replicate targets.length Instr.ret) s = .next t ∧
      t = { s with pc := if targets = [] then s.pc else s.pc + 2, stack := t.stack } ∧
      ∀ j : Fin 16, j.val < s.sp.val → t.stack[j] = s.stack[j]) ∧
    (s.sp.val + targets.length = s.cfg.stackCapacity.val →
      ∀ nnn, ∃ t, execInOrder (targets.map Instr.callAddr ++ [Instr.callAddr nnn]) s = .next t ∧
        t.runState = .fault ∧ t.faultCause = .stackOverflow ∧
        t.sp.val = s.cfg.stackCapacity.val)

/-! ### Loads and arithmetic -/

/-- 6XNN and 7XNN (rules R120, R121): NN, or the sum modulo 256 with no flag written. -/
def Obligations.LoadAndAddImmediate : Prop :=
  ∀ (s : State) (x : Nibble) (nn : Byte),
    exec (.ldVxByte x nn) s = .next (s.setReg x nn) ∧
    exec (.addVxByte x nn) s =
      .next (s.setReg x (BitVec.ofNat 8 (((s.reg x).toNat + nn.toNat) % 256)))

/-- 8XY0 (rule R122): V[X] <- V[Y], no flag; X = Y changes nothing. -/
def Obligations.LoadRegister : Prop :=
  ∀ (s : State) (x y : Nibble),
    exec (.ldVxVy x y) s = .next (s.setReg x (s.reg y)) ∧ exec (.ldVxVy x x) s = .next s

/-- 8XY1, 8XY2, 8XY3 (rules R123, R124, R125): each bit of V[X] from the same bits of the operands, then
VF <- 0 exactly when Q_VF_RESET.
That the flag is written last, seen when X = F, is the spec's decision D16. -/
def Obligations.LogicalOperations : Prop :=
  ∀ (s : State) (x y : Nibble) (r : Byte),
    ((∀ j, j < 8 → r.getLsbD j = ((s.reg x).getLsbD j || (s.reg y).getLsbD j)) →
      exec (.orVxVy x y) s =
        .next (if s.cfg.qVfReset = true then (s.setReg x r).setReg 0xF 0 else s.setReg x r)) ∧
    ((∀ j, j < 8 → r.getLsbD j = ((s.reg x).getLsbD j && (s.reg y).getLsbD j)) →
      exec (.andVxVy x y) s =
        .next (if s.cfg.qVfReset = true then (s.setReg x r).setReg 0xF 0 else s.setReg x r)) ∧
    ((∀ j, j < 8 → r.getLsbD j = ((s.reg x).getLsbD j ^^ (s.reg y).getLsbD j)) →
      exec (.xorVxVy x y) s =
        .next (if s.cfg.qVfReset = true then (s.setReg x r).setReg 0xF 0 else s.setReg x r))

/-- 8XY4 (rule R126): the sum modulo 256, then VF <- carry.
That the flag is written last, seen when X = F, is the spec's decision D16. -/
def Obligations.AddSetsCarry : Prop :=
  ∀ (s : State) (x y : Nibble),
    let a := (s.reg x).toNat
    let b := (s.reg y).toNat
    exec (.addVxVy x y) s =
      .next ((s.setReg x (BitVec.ofNat 8 ((a + b) % 256))).setReg 0xF (if a + b > 255 then 1 else 0))

/-- 8XY5 and 8XY7 (rules R127, R129): the difference modulo 256, then VF <- no borrow; equal operands give
0 and VF = 1.
That the flag is written last, seen when X = F, is the spec's decision D16. -/
def Obligations.SubtractSetsNoBorrow : Prop :=
  ∀ (s : State) (x y : Nibble),
    let a := (s.reg x).toNat
    let b := (s.reg y).toNat
    exec (.subVxVy x y) s =
      .next ((s.setReg x (BitVec.ofNat 8 (if a ≥ b then a - b else a + 256 - b))).setReg 0xF
        (if a ≥ b then 1 else 0)) ∧
    exec (.subnVxVy x y) s =
      .next ((s.setReg x (BitVec.ofNat 8 (if b ≥ a then b - a else b + 256 - a))).setReg 0xF
        (if b ≥ a then 1 else 0))

/-- 8XY6 and 8XYE (rules R128, R130): one logical shift of V[Y] when Q_SHIFT_VY, of V[X] when not, then
VF <- the bit shifted out.
That the flag is written last, seen when X = F, is the spec's decision D16. -/
def Obligations.ShiftsMoveOneBitIntoVF : Prop :=
  ∀ (s : State) (x y : Nibble),
    let v := (if s.cfg.qShiftVy = true then s.reg y else s.reg x).toNat
    exec (.shrVxVy x y) s =
      .next ((s.setReg x (BitVec.ofNat 8 (v / 2))).setReg 0xF (BitVec.ofNat 8 (v % 2))) ∧
    exec (.shlVxVy x y) s =
      .next ((s.setReg x (BitVec.ofNat 8 (v * 2 % 256))).setReg 0xF (BitVec.ofNat 8 (v / 128)))

/-- The register file (rule R10): sixteen independent registers, none hard-wired, and writing one leaves
the others and everything else. -/
def Obligations.RegisterFileHasSixteenIndependentRegisters : Prop :=
  ∀ (s : State) (x y : Nibble) (b : Byte),
    (s.setReg x b).reg y = (if y = x then b else s.reg y) ∧
    s.setReg x b = { s with v := (s.setReg x b).v } ∧ State.reset.reg x = 0

/-! ### Index register and memory transfer -/

/-- ANNN, FX1E, FX29 (rules R140, R141, R142): I alone is written; the sum wraps at 16 bits with no flag,
and the whole 8-bit register is multiplied. -/
def Obligations.IndexRegisterLoads : Prop :=
  ∀ (s : State) (nnn : Addr) (x : Nibble),
    exec (.ldIAddr nnn) s = .next { s with i := BitVec.ofNat 16 nnn.toNat } ∧
    exec (.addIVx x) s =
      .next { s with i := BitVec.ofNat 16 ((s.i.toNat + (s.reg x).toNat) % 65536) } ∧
    exec (.ldFVx x) s = .next { s with i := BitVec.ofNat 16 ((s.reg x).toNat * 5) }

/-- FX33: the three decimal digits of V[X] at I, I + 1, I + 2, every other byte and all else unchanged;
DataAddressFault, nothing written, when I > 4093. That the hundreds go first is the spec's general
knowledge G4, and that the range faults its decision D11. -/
def Obligations.BcdStoresThreeDigits : Prop :=
  ∀ (s : State) (x : Nibble), Memory.wf s.mem = true →
    (s.i.toNat ≤ 4093 →
      ∃ t, exec (.ldBVx x) s = .next t ∧ t = { s with mem := t.mem } ∧
        (Memory.read t.mem s.i.toNat).toNat = (s.reg x).toNat / 100 ∧
        (Memory.read t.mem (s.i.toNat + 1)).toNat = (s.reg x).toNat / 10 % 10 ∧
        (Memory.read t.mem (s.i.toNat + 2)).toNat = (s.reg x).toNat % 10 ∧
        ∀ a, a < s.i.toNat ∨ s.i.toNat + 2 < a → Memory.read t.mem a = Memory.read s.mem a) ∧
    (4093 < s.i.toNat →
      exec (.ldBVx x) s = .next { s with runState := .fault, faultCause := .dataAddressFault })

/-- FX55: V0 .. VX at I .. I + X in order, every other byte and all else unchanged, I advanced by X + 1
exactly when Q_MEM_INCR; DataAddressFault, nothing written, when I + X > 4095. The amount X + 1 is the
spec's general knowledge G5, the fault its decision D11. -/
def Obligations.DumpStoresRegisters : Prop :=
  ∀ (s : State) (x : Nibble), Memory.wf s.mem = true →
    (s.i.toNat + x.toNat ≤ 4095 →
      ∃ t, exec (.dumpVx x) s = .next t ∧
        t = { s with mem := t.mem
                     i := if s.cfg.qMemIncr = true then BitVec.ofNat 16 (s.i.toNat + x.toNat + 1)
                          else s.i } ∧
        (∀ j : Nibble, j.toNat ≤ x.toNat → Memory.read t.mem (s.i.toNat + j.toNat) = s.reg j) ∧
        ∀ a, a < s.i.toNat ∨ s.i.toNat + x.toNat < a → Memory.read t.mem a = Memory.read s.mem a) ∧
    (4095 < s.i.toNat + x.toNat →
      exec (.dumpVx x) s = .next { s with runState := .fault, faultCause := .dataAddressFault })

/-- FX65: V0 .. VX from I .. I + X, the registers above X and all of memory unchanged, I advanced as by
FX55 (G5); DataAddressFault, nothing written, when I + X > 4095 (D11). -/
def Obligations.LoadFillsRegisters : Prop :=
  ∀ (s : State) (x : Nibble),
    (s.i.toNat + x.toNat ≤ 4095 →
      ∃ t, exec (.loadVx x) s = .next t ∧
        t = { s with v := t.v
                     i := if s.cfg.qMemIncr = true then BitVec.ofNat 16 (s.i.toNat + x.toNat + 1)
                          else s.i } ∧
        ∀ j : Nibble, t.reg j =
          if j.toNat ≤ x.toNat then Memory.read s.mem (s.i.toNat + j.toNat) else s.reg j) ∧
    (4095 < s.i.toNat + x.toNat →
      exec (.loadVx x) s = .next { s with runState := .fault, faultCause := .dataAddressFault })

/-- FX55, then any change of the registers and of I back to its old value, then FX65 with the same X:
V0 .. VX are as they were (95_test_vectors.md S3). -/
def Obligations.DumpThenLoadRestoresRegisters : Prop :=
  ∀ (s : State) (x : Nibble), Memory.wf s.mem = true → s.i.toNat + x.toNat ≤ 4095 →
    ∃ t, exec (.dumpVx x) s = .next t ∧
      ∀ u : State, u.mem = t.mem → u.i = s.i →
        ∃ u', exec (.loadVx x) u = .next u' ∧ u'.mem = t.mem ∧
          ∀ j : Nibble, (j.toNat ≤ x.toNat → u'.reg j = s.reg j) ∧
            (x.toNat < j.toNat → u'.reg j = u.reg j)

/-! ### Display -/

/-- 00E0 (rule R160): every cell off and redraw set, also when the buffer was already clear; VF and all
else unchanged. -/
def Obligations.ClearTurnsEveryCellOff : Prop :=
  ∀ s : State, ∃ t, exec .cls s = .next t ∧ (∀ x y, t.pixel x y = false) ∧ t.redraw = true ∧
    t = { s with px := t.px, redraw := true } ∧
    exec .cls t = .next t

/-- DXYN: every cell is turned over once for each sprite bit that falls on it, VF = 1 exactly when some
bit found its cell on, redraw is set, and nothing else changes; N = 0 reads nothing and clears VF;
DataAddressFault, nothing drawn, when N > 0 and I + N - 1 > 4095. The bit order, the screen's orientation
and the clipping rule of `State.hits` are the spec's own (G3, G6, D25), the range check D11 and D12. -/
def Obligations.DrawXorsTheSprite : Prop :=
  ∀ (s : State) (x y n : Nibble), s.Inv →
    (n.toNat = 0 ∨ s.i.toNat + n.toNat - 1 ≤ 4095 →
      ∃ t, exec (.drwVxVy x y n) s = .next t ∧
        (∀ c, cellOn t.px c = (cellOn s.px c ^^ ((s.hits x y n).count c % 2 == 1))) ∧
        pxWfFrom 0 (s.cfg.displayW * s.cfg.displayH) t.px = true ∧
        (t.reg 0xF = 1 ↔
          ∃ k, ∃ h : k < (s.hits x y n).length,
            (cellOn s.px (s.hits x y n)[k] ^^
              (((s.hits x y n).take k).count (s.hits x y n)[k] % 2 == 1)) = true) ∧
        (t.reg 0xF = 0 ∨ t.reg 0xF = 1) ∧
        t = { s.setReg 0xF (t.reg 0xF) with px := t.px, redraw := true }) ∧
    (0 < n.toNat → 4095 < s.i.toNat + n.toNat - 1 →
      exec (.drwVxVy x y n) s =
        .next { s with runState := .fault, faultCause := .dataAddressFault })

/-- Drawing the same sprite twice at the same place gives the pixel buffer back, as a list and so cell by
cell, under both values of Q_CLIP (D25); when the sprite is no taller than the screen the second draw
reports a collision exactly when some cell it falls on was off to begin with, which is what R161's loops
give where its corner case (8) is narrower (log 12). -/
def Obligations.DrawingTwiceRestoresTheScreen : Prop :=
  ∀ (s t u : State) (x y n : Nibble), s.Inv → s.runState = .running → x ≠ 0xF → y ≠ 0xF →
    exec (.drwVxVy x y n) s = .next t → t.runState = .running →
    exec (.drwVxVy x y n) t = .next u →
    u.px = s.px ∧ u.redraw = true ∧ u.i = s.i ∧ u.mem = s.mem ∧
    (n.toNat ≤ s.cfg.displayH →
      (u.reg 0xF = 1 ↔ ∃ c ∈ s.hits x y n, cellOn s.px c = false))

/-! ### Keypad, timers, random -/

/-- EX9E and EXA1: with V[X] in 0 .. 15 the skip is on the level of keys[V[X]], and nothing else changes;
KeyIndexFault above 15, which is the spec's decision D13. -/
def Obligations.KeySkipsTestTheLatch : Prop :=
  ∀ (s : State) (x : Nibble),
    ((s.reg x).toNat ≤ 15 →
      exec (.skpVx x) s =
        .next { s with pc := if s.key (BitVec.ofNat 4 (s.reg x).toNat) = true then s.pc + 2
                             else s.pc } ∧
      exec (.sknpVx x) s =
        .next { s with pc := if s.key (BitVec.ofNat 4 (s.reg x).toNat) = true then s.pc
                             else s.pc + 2 }) ∧
    (15 < (s.reg x).toNat →
      exec (.skpVx x) s = .next { s with runState := .fault, faultCause := .keyIndexFault } ∧
      exec (.sknpVx x) s = .next { s with runState := .fault, faultCause := .keyIndexFault })

/-- FX0A: waiting for a press it parks, remembering the least pressed key if there is one; waiting for the
release it parks while the remembered key is down and else writes its number and ends the wait. Level
sensitivity and the lowest key are the spec's decision D17. -/
def Obligations.KeyWaitFollowsItsStates : Prop :=
  ∀ (s : State) (x : Nibble),
    (s.kwState ≠ .awaitingRelease →
      (∀ k, s.key k = true → (∀ j : Nibble, j.toNat < k.toNat → s.key j = false) →
        exec (.ldVxK x) s =
          .next { s with kwKey := k, kwState := .awaitingRelease, pc := s.pc - 2 }) ∧
      ((∀ k, s.key k = false) →
        exec (.ldVxK x) s = .next { s with kwState := .awaitingPress, pc := s.pc - 2 })) ∧
    (s.kwState = .awaitingRelease →
      (s.key s.kwKey = true → exec (.ldVxK x) s = .next { s with pc := s.pc - 2 }) ∧
      (s.key s.kwKey = false →
        exec (.ldVxK x) s =
          .next { s.setReg x (BitVec.ofNat 8 s.kwKey.toNat) with kwState := .idle }))

/-- Key k pressed and then released across three cycles of an FX0A: exactly one write, of k to V[X]; pc
unchanged while parked and advanced by 2 at the end; the latch is as it was (95_test_vectors.md S6). -/
def Obligations.KeyWaitTakesAPressAndRelease : Prop :=
  ∀ (s : State) (x k : Nibble) (rest : List Event), s.canFetch → s.instrAtPc = .ldVxK x →
    s.kwState = .idle → (∀ j, s.key j = false) →
    s.pending = .instrCycle none :: .keyWrite k true :: .instrCycle none :: .keyWrite k false ::
      .instrCycle none :: rest →
    (∃ t, runSteps 4 s = .next t ∧ t.pc = s.pc ∧ t.v = s.v ∧ t.kwState = .awaitingRelease) ∧
    runSteps 5 s =
      .next { s.setReg x (BitVec.ofNat 8 k.toNat) with
                pc := s.pc + 2, kwKey := k, batch := s.batch + 3, rndIn := none, pending := rest }

/-- FX07, FX15, FX18 (rules R173, R174, R175): the timers and V[X] copied whole, nothing else written; the
tone follows ST at once. -/
def Obligations.TimerRegistersAreCopied : Prop :=
  ∀ (s : State) (x : Nibble),
    exec (.ldVxDT x) s = .next (s.setReg x s.dt) ∧
    exec (.ldDTVx x) s = .next { s with dt := s.reg x } ∧
    exec (.ldSTVx x) s = .next { s with st := s.reg x } ∧
    ∀ t, exec (.ldSTVx x) s = .next t → (t.tone = true ↔ (s.reg x).toNat ≠ 0)

/-- CXNN (R176): V[X] <- rnd & NN for whatever byte the cycle was given; never a bit that NN has clear; and
only CXNN consumes the byte: any other instruction does the same whatever `rnd` is and however many draws
there have been. That a cycle given no byte uses the free value `Config.randomByte` of the draw count, and
that each CXNN adds 1 to `draws`, is the model's choice (log 3). -/
def Obligations.RandomByteIsMasked : Prop :=
  (∀ (s : State) (x : Nibble) (nn : Byte),
    (∀ r, s.rndIn = some r →
      exec (.rndVxByte x nn) s = .next { s.setReg x (r &&& nn) with draws := s.draws + 1 }) ∧
    (s.rndIn = none →
      exec (.rndVxByte x nn) s =
        .next { s.setReg x (Config.randomByte s.draws &&& nn) with draws := s.draws + 1 }) ∧
    ∀ t, exec (.rndVxByte x nn) s = .next t →
      ∀ j, nn.getLsbD j = false → (t.reg x).getLsbD j = false) ∧
  ∀ (i : Instr) (s t : State) (r : Option Byte) (d : Nat), (∀ x nn, i ≠ .rndVxByte x nn) →
    exec i s = .next t →
    exec i { s with rndIn := r, draws := d } = .next { t with rndIn := r, draws := d }
end

