-- ==== Sys2Proof/Laws/Decode.lean ====
section
/-! SUPPORT. The laws of fields and words: the fields of a word built from digits are those digits, and a
word is built back from its own fields. -/

namespace Sys2Proof

/-- The fields as numbers: the digit positions of rule R61. -/
theorem fieldOp_toNat (w : Word) : (fieldOp w).toNat = w.toNat / 4096 := by
  simp [fieldOp, Nat.shiftRight_eq_div_pow]; omega
theorem fieldX_toNat (w : Word) : (fieldX w).toNat = w.toNat / 256 % 16 := by
  simp [fieldX, Nat.shiftRight_eq_div_pow]
theorem fieldY_toNat (w : Word) : (fieldY w).toNat = w.toNat / 16 % 16 := by
  simp [fieldY, Nat.shiftRight_eq_div_pow]
theorem fieldN_toNat (w : Word) : (fieldN w).toNat = w.toNat % 16 := by simp [fieldN]
theorem fieldNN_toNat (w : Word) : (fieldNN w).toNat = w.toNat % 256 := by simp [fieldNN]
theorem fieldNNN_toNat (w : Word) : (fieldNNN w).toNat = w.toNat % 4096 := by simp [fieldNNN]

theorem wordXYN_toNat (op x y n : Nibble) :
    (wordXYN op x y n).toNat = op.toNat * 4096 + x.toNat * 256 + y.toNat * 16 + n.toNat := by
  simp [wordXYN]; omega
theorem wordXNN_toNat (op x : Nibble) (nn : Byte) :
    (wordXNN op x nn).toNat = op.toNat * 4096 + x.toNat * 256 + nn.toNat := by
  simp [wordXNN]; omega
theorem wordNNN_toNat (op : Nibble) (nnn : Addr) :
    (wordNNN op nnn).toNat = op.toNat * 4096 + nnn.toNat := by
  simp [wordNNN]; omega

/-! ### The fields of a built word -/

@[simp] theorem fieldOp_wordXYN (op x y n : Nibble) : fieldOp (wordXYN op x y n) = op :=
  BitVec.eq_of_toNat_eq (by rw [fieldOp_toNat, wordXYN_toNat]; omega)
@[simp] theorem fieldX_wordXYN (op x y n : Nibble) : fieldX (wordXYN op x y n) = x :=
  BitVec.eq_of_toNat_eq (by rw [fieldX_toNat, wordXYN_toNat]; omega)
@[simp] theorem fieldY_wordXYN (op x y n : Nibble) : fieldY (wordXYN op x y n) = y :=
  BitVec.eq_of_toNat_eq (by rw [fieldY_toNat, wordXYN_toNat]; omega)
@[simp] theorem fieldN_wordXYN (op x y n : Nibble) : fieldN (wordXYN op x y n) = n :=
  BitVec.eq_of_toNat_eq (by rw [fieldN_toNat, wordXYN_toNat]; omega)
@[simp] theorem fieldOp_wordXNN (op x : Nibble) (nn : Byte) : fieldOp (wordXNN op x nn) = op :=
  BitVec.eq_of_toNat_eq (by rw [fieldOp_toNat, wordXNN_toNat]; omega)
@[simp] theorem fieldX_wordXNN (op x : Nibble) (nn : Byte) : fieldX (wordXNN op x nn) = x :=
  BitVec.eq_of_toNat_eq (by rw [fieldX_toNat, wordXNN_toNat]; omega)
@[simp] theorem fieldNN_wordXNN (op x : Nibble) (nn : Byte) : fieldNN (wordXNN op x nn) = nn :=
  BitVec.eq_of_toNat_eq (by rw [fieldNN_toNat, wordXNN_toNat]; omega)
@[simp] theorem fieldOp_wordNNN (op : Nibble) (nnn : Addr) : fieldOp (wordNNN op nnn) = op :=
  BitVec.eq_of_toNat_eq (by rw [fieldOp_toNat, wordNNN_toNat]; omega)
@[simp] theorem fieldNNN_wordNNN (op : Nibble) (nnn : Addr) : fieldNNN (wordNNN op nnn) = nnn :=
  BitVec.eq_of_toNat_eq (by rw [fieldNNN_toNat, wordNNN_toNat]; omega)

/-! ### A word from its own fields -/

theorem wordXYN_fields (w : Word) : wordXYN (fieldOp w) (fieldX w) (fieldY w) (fieldN w) = w :=
  BitVec.eq_of_toNat_eq (by
    rw [wordXYN_toNat, fieldOp_toNat, fieldX_toNat, fieldY_toNat, fieldN_toNat]; omega)
theorem wordXNN_fields (w : Word) : wordXNN (fieldOp w) (fieldX w) (fieldNN w) = w :=
  BitVec.eq_of_toNat_eq (by rw [wordXNN_toNat, fieldOp_toNat, fieldX_toNat, fieldNN_toNat]; omega)
theorem wordNNN_fields (w : Word) : wordNNN (fieldOp w) (fieldNNN w) = w :=
  BitVec.eq_of_toNat_eq (by rw [wordNNN_toNat, fieldOp_toNat, fieldNNN_toNat]; omega)

/-! ### Bytes -/

theorem wordOfBytes_toNat (hi lo : Byte) : (wordOfBytes hi lo).toNat = hi.toNat * 256 + lo.toNat := by
  simp [wordOfBytes]; omega

/-- A word is read back from its two bytes. -/
theorem decodeBytes_bytesOfWord (w : Word) (rest : List Byte) :
    decodeBytes (bytesOfWord w ++ rest) = .ok (decodeWord w, rest) := by
  have : wordOfBytes (w.extractLsb' 8 8) (w.extractLsb' 0 8) = w := by
    apply BitVec.eq_of_toNat_eq
    rw [wordOfBytes_toNat]
    simp [Nat.shiftRight_eq_div_pow]
    omega
  simp [decodeBytes, bytesOfWord, this]

/-- Two bytes are the bytes of the word they make. -/
theorem bytesOfWord_wordOfBytes (hi lo : Byte) : bytesOfWord (wordOfBytes hi lo) = [hi, lo] := by
  unfold bytesOfWord
  congr 1
  · apply BitVec.eq_of_toNat_eq
    simp [wordOfBytes_toNat, Nat.shiftRight_eq_div_pow]
    omega
  · congr 1
    apply BitVec.eq_of_toNat_eq
    simp [wordOfBytes_toNat]
    omega

/-! ### Masks: what a row of the opcode map tests (rule R65) -/

theorem nat_and_digits (a b c d : Nat) (k : Nat) (hb : b < 2^k) (hd : d < 2^k) :
    (a * 2^k + b) &&& (c * 2^k + d) = (a &&& c) * 2^k + (b &&& d) := by
  have hbd : b &&& d < 2^k := Nat.lt_of_le_of_lt Nat.and_le_left hb
  rw [← Nat.shiftLeft_eq, ← Nat.shiftLeft_eq, ← Nat.shiftLeft_eq]
  rw [Nat.shiftLeft_add_eq_or_of_lt hb, Nat.shiftLeft_add_eq_or_of_lt hd, Nat.shiftLeft_add_eq_or_of_lt hbd]
  apply Nat.eq_of_testBit_eq
  intro i
  simp only [Nat.testBit_and, Nat.testBit_or, Nat.testBit_shiftLeft]
  by_cases h : k ≤ i
  · have e1 : b.testBit i = false := Nat.testBit_lt_two_pow (Nat.lt_of_lt_of_le hb (Nat.pow_le_pow_right (by omega) h))
    have e2 : d.testBit i = false := Nat.testBit_lt_two_pow (Nat.lt_of_lt_of_le hd (Nat.pow_le_pow_right (by omega) h))
    simp [h, e1, e2]
  · simp [h]

theorem wordXYN_and (a b c d a' b' c' d' : Nibble) :
    wordXYN a b c d &&& wordXYN a' b' c' d' = wordXYN (a &&& a') (b &&& b') (c &&& c') (d &&& d') := by
  apply BitVec.eq_of_toNat_eq
  simp only [BitVec.toNat_and, wordXYN_toNat]
  have e (a b c d : Nat) : a * 4096 + b * 256 + c * 16 + d = (a * 2^8 + b * 2^4 + c) * 2^4 + d := by omega
  rw [e, e, nat_and_digits _ _ _ _ 4 (by omega) (by omega)]
  have e (a b c : Nat) : a * 2^8 + b * 2^4 + c = (a * 2^4 + b) * 2^4 + c := by omega
  rw [e, e, nat_and_digits _ _ _ _ 4 (by omega) (by omega), nat_and_digits _ _ _ _ 4 (by omega) (by omega)]
  omega

theorem and_fields (w : Word) (a b c d : Nibble) :
    w &&& wordXYN a b c d = wordXYN (fieldOp w &&& a) (fieldX w &&& b) (fieldY w &&& c) (fieldN w &&& d) := by
  conv => lhs; rw [← wordXYN_fields w]
  rw [wordXYN_and]

theorem wordXYN_inj {a b c d a' b' c' d' : Nibble} :
    wordXYN a b c d = wordXYN a' b' c' d' ↔ a = a' ∧ b = b' ∧ c = c' ∧ d = d' := by
  constructor
  · intro h
    have h := congrArg BitVec.toNat h
    rw [wordXYN_toNat, wordXYN_toNat] at h
    refine ⟨?_, ?_, ?_, ?_⟩ <;> apply BitVec.eq_of_toNat_eq <;> omega
  · rintro ⟨rfl, rfl, rfl, rfl⟩; rfl

theorem fieldNN_eq_iff (w : Word) (y n : Nibble) (v : Byte) (hv : v.toNat = y.toNat * 16 + n.toNat) : fieldNN w = v ↔ fieldY w = y ∧ fieldN w = n := by
  constructor
  · rintro h
    have h := congrArg BitVec.toNat h
    rw [fieldNN_toNat] at h
    constructor <;> apply BitVec.eq_of_toNat_eq <;> simp only [fieldY_toNat, fieldN_toNat] <;> omega
  · rintro ⟨rfl, rfl⟩
    apply BitVec.eq_of_toNat_eq
    simp only [fieldY_toNat, fieldN_toNat] at hv
    rw [fieldNN_toNat]; omega
@[simp] theorem nibble_and_ones (a : Nibble) : a &&& 15#4 = a := by
  revert a; decide
@[simp] theorem nibble_and_zeros (a : Nibble) : a &&& 0#4 = 0 := by
  revert a; decide

theorem selects_nnn (w : Word) (k : Nibble) (v : Word) (hv : v = wordXYN k 0 0 0) :
    w &&& 0xF000#16 = v ↔ fieldOp w = k := by
  rw [show (0xF000#16) = wordXYN 15 0 0 0 by decide, and_fields, hv, wordXYN_inj]; simp
theorem selects_xyn (w : Word) (k n : Nibble) (v : Word) (hv : v = wordXYN k 0 0 n) :
    w &&& 0xF00F#16 = v ↔ fieldOp w = k ∧ fieldN w = n := by
  rw [show (0xF00F#16) = wordXYN 15 0 0 15 by decide, and_fields, hv, wordXYN_inj]; simp
theorem selects_xnn (w : Word) (k : Nibble) (nn : Byte) (v : Word) (hv : v = wordXNN k 0 nn) :
    w &&& 0xF0FF#16 = v ↔ fieldOp w = k ∧ fieldNN w = nn := by
  have e : wordXNN k 0 nn = wordXYN k 0 (BitVec.ofNat 4 (nn.toNat / 16)) (BitVec.ofNat 4 (nn.toNat % 16)) := by
    apply BitVec.eq_of_toNat_eq; rw [wordXNN_toNat, wordXYN_toNat]; simp; omega
  rw [show (0xF0FF#16) = wordXYN 15 0 15 15 by decide, and_fields, hv, e, wordXYN_inj, fieldNN_eq_iff w (BitVec.ofNat 4 (nn.toNat / 16)) (BitVec.ofNat 4 (nn.toNat % 16)) nn (by simp; omega)]
  simp
theorem selects_fixed (w : Word) (v : Word)  : w &&& 0xFFFF#16 = v ↔ w = v := by
  have : w &&& 0xFFFF#16 = w := by
    rw [show (0xFFFF#16) = wordXYN 15 15 15 15 by decide, and_fields]; simp [wordXYN_fields]
  rw [this]

theorem nibble_cases : ∀ a : Nibble, a = 0#4 ∨ a = 1#4 ∨ a = 2#4 ∨ a = 3#4 ∨ a = 4#4 ∨ a = 5#4 ∨ a = 6#4 ∨ a = 7#4 ∨
    a = 8#4 ∨ a = 9#4 ∨ a = 10#4 ∨ a = 11#4 ∨ a = 12#4 ∨ a = 13#4 ∨ a = 14#4 ∨ a = 15#4 := by decide

end Sys2Proof
end

