-- ==== Sys2Proof/Laws/Memory.lean ====
section
/-! SUPPORT. The laws of the memory list: what a read gives after a write, and that every operation keeps
the canonical form. -/

namespace Sys2Proof.Machine

@[simp] theorem Memory.wfFrom_cons (lo j : Nat) (c : Byte) (m : Memory) :
    Memory.wfFrom lo ((j, c) :: m) = true ↔
      lo ≤ j ∧ j < memSize ∧ c ≠ unlisted j ∧ Memory.wfFrom (j + 1) m = true := by
  simp [Memory.wfFrom, and_assoc]

theorem Memory.wfFrom_mono {m : Memory} {lo lo' : Nat} (h : lo ≤ lo')
    (hm : Memory.wfFrom lo' m = true) : Memory.wfFrom lo m = true := by
  cases m with
  | nil => rfl
  | cons p m =>
    obtain ⟨j, c⟩ := p
    simp only [wfFrom_cons] at hm ⊢
    exact ⟨by omega, hm.2⟩

/-- Below its first possible address a canonical list holds nothing. -/
theorem Memory.read_of_lt {m : Memory} {lo a : Nat} (hm : Memory.wfFrom lo m = true) (h : a < lo) :
    Memory.read m a = unlisted a := by
  induction m generalizing lo with
  | nil => rfl
  | cons p m ih =>
    obtain ⟨j, c⟩ := p
    simp only [wfFrom_cons] at hm
    have : a ≠ j := by omega
    simp only [Memory.read, if_neg this]
    exact ih hm.2.2.2 (by omega)

theorem Memory.wfFrom_write {m : Memory} {lo a : Nat} (b : Byte) (hm : Memory.wfFrom lo m = true)
    (hlo : lo ≤ a) (ha : a < memSize) : Memory.wfFrom lo (Memory.write m a b) = true := by
  induction m generalizing lo with
  | nil =>
    unfold Memory.write
    split
    · rfl
    · simp_all [Memory.wfFrom]
  | cons p m ih =>
    obtain ⟨j, c⟩ := p
    have hm' := hm
    simp only [wfFrom_cons] at hm
    unfold Memory.write
    split
    · split
      · exact hm'
      · simp only [wfFrom_cons]
        exact ⟨hlo, ha, ‹_›, by omega, hm.2⟩
    · split
      · split
        · exact Memory.wfFrom_mono (by omega) hm.2.2.2
        · simp only [wfFrom_cons]
          subst_vars
          exact ⟨hlo, ha, ‹_›, hm.2.2.2⟩
      · simp only [wfFrom_cons]
        exact ⟨hm.1, hm.2.1, hm.2.2.1, ih hm.2.2.2 (by omega)⟩

/-- Writing a byte of the address space keeps the canonical form. -/
theorem Memory.wf_write {m : Memory} {a : Nat} (b : Byte) (hm : Memory.wf m = true) (ha : a ≤ 4095) :
    Memory.wf (Memory.write m a b) = true :=
  Memory.wfFrom_write b hm (Nat.zero_le _) (by unfold memSize; omega)

theorem Memory.read_write_from {m : Memory} {lo a : Nat} (b : Byte) (c : Nat)
    (hm : Memory.wfFrom lo m = true) :
    Memory.read (Memory.write m a b) c = if c = a then b else Memory.read m c := by
  induction m generalizing lo with
  | nil =>
    unfold Memory.write
    split <;> split <;> simp_all [Memory.read]
  | cons p m ih =>
    obtain ⟨j, d⟩ := p
    simp only [wfFrom_cons] at hm
    have lt {k : Nat} (h : k ≤ j) : Memory.read m k = unlisted k :=
      Memory.read_of_lt hm.2.2.2 (by omega)
    unfold Memory.write
    split
    · split
      · by_cases h : c = a
        · subst h
          have : c ≠ j := by omega
          simp [Memory.read, lt (show c ≤ j by omega), *]
        · simp [h]
      · simp [Memory.read]
    · split
      · subst_vars
        split
        · by_cases h : c = j
          · subst h; simp [lt (Nat.le_refl _), *]
          · simp [Memory.read, h]
        · by_cases h : c = j <;> simp [Memory.read, h]
      · by_cases h : c = j
        · subst h
          have : c ≠ a := by omega
          simp [Memory.read, this]
        · simp [Memory.read, h, ih hm.2.2.2]

/-- A read after a write. -/
theorem Memory.read_write {m : Memory} (a : Nat) (b : Byte) (c : Nat) (hm : Memory.wf m = true) :
    Memory.read (Memory.write m a b) c = if c = a then b else Memory.read m c :=
  Memory.read_write_from b c hm

/-- Byte writes inside the address space keep the canonical form. -/
theorem Memory.wf_writeBytes {m : Memory} {a : Nat} {bs : List Byte} (hm : Memory.wf m = true)
    (h : a + bs.length ≤ 4096) : Memory.wf (Memory.writeBytes m a bs) = true := by
  induction bs generalizing m a with
  | nil => exact hm
  | cons b bs ih =>
    simp only [List.length_cons] at h
    exact ih (Memory.wf_write b hm (by omega)) (by omega)

/-- A read after a run of byte writes: the written byte inside the run, the old one outside. -/
theorem Memory.read_writeBytes {m : Memory} {a : Nat} {bs : List Byte} (c : Nat)
    (hm : Memory.wf m = true) (h : a + bs.length ≤ 4096) :
    Memory.read (Memory.writeBytes m a bs) c =
      if a ≤ c ∧ c < a + bs.length then bs.getD (c - a) 0 else Memory.read m c := by
  induction bs generalizing m a with
  | nil => simp [Memory.writeBytes]
  | cons b bs ih =>
    simp only [List.length_cons] at h ⊢
    rw [Memory.writeBytes, ih (Memory.wf_write b hm (by omega)) (by omega), Memory.read_write _ _ _ hm]
    by_cases h1 : c = a
    · subst h1; simp
    · by_cases h2 : a ≤ c
      · have e : c - a = (c - (a + 1)) + 1 := by omega
        simp only [h1, if_false, e, List.getD_cons_succ]
        congr 1
        simp; omega
      · have : ¬ (a + 1 ≤ c) := by omega
        simp [h1, h2, this]

/-- Below every listed address but the first, canonical lists that read alike are alike: the induction
step of extensionality. -/
theorem Memory.head_eq {j k : Nat} {c d : Byte} {m m' : Memory} {lo : Nat}
    (hm : Memory.wfFrom lo ((j, c) :: m) = true) (hm' : Memory.wfFrom lo ((k, d) :: m') = true)
    (h : ∀ a, a < 4096 → Memory.read ((j, c) :: m) a = Memory.read ((k, d) :: m') a) :
    j = k ∧ c = d := by
  simp only [wfFrom_cons, memSize] at hm hm'
  rcases Nat.lt_trichotomy j k with lt | eq | gt
  · have := h j (by omega)
    rw [Memory.read, if_pos rfl, Memory.read, if_neg (by omega),
      Memory.read_of_lt hm'.2.2.2 (by omega)] at this
    exact absurd this hm.2.2.1
  · subst eq
    have := h j (by omega)
    rw [Memory.read, if_pos rfl, Memory.read, if_pos rfl] at this
    exact ⟨rfl, this⟩
  · have := h k (by omega)
    rw [Memory.read, if_neg (by omega), Memory.read, if_pos rfl,
      Memory.read_of_lt hm.2.2.2 (by omega)] at this
    exact absurd this.symm hm'.2.2.1

end Sys2Proof.Machine
end

