-- ==== Sys2Proof/Laws/Pixels.lean ====
section
/-! SUPPORT. The laws of the pixel buffer's list: what turning cells over does to each cell, that it keeps
the canonical form, and where a sprite's cells lie. -/

namespace Sys2Proof.Machine

@[simp] theorem pxWfFrom_cons (lo n i : Nat) (px : List Nat) :
    pxWfFrom lo n (i :: px) = true ↔ lo ≤ i ∧ i < n ∧ pxWfFrom (i + 1) n px = true := by
  simp [pxWfFrom, and_assoc]

theorem pxWfFrom_mono {lo lo' n : Nat} {px : List Nat} (h : lo ≤ lo')
    (hp : pxWfFrom lo' n px = true) : pxWfFrom lo n px = true := by
  cases px with
  | nil => rfl
  | cons i px =>
    simp only [pxWfFrom_cons] at hp ⊢
    exact ⟨by omega, hp.2⟩

theorem cellOn_cons (i c : Nat) (px : List Nat) : cellOn (i :: px) c = (decide (c = i) || cellOn px c) := by
  simp [cellOn]

/-- Below its first possible index a canonical list has no cell. -/
theorem cellOn_of_lt {lo n c : Nat} {px : List Nat} (hp : pxWfFrom lo n px = true) (h : c < lo) :
    cellOn px c = false := by
  induction px generalizing lo with
  | nil => rfl
  | cons i px ih =>
    simp only [pxWfFrom_cons] at hp
    rw [cellOn_cons, ih hp.2.2 (by omega)]
    simp; omega

theorem pxWfFrom_toggleCell {lo n i : Nat} {px : List Nat} (hp : pxWfFrom lo n px = true)
    (hlo : lo ≤ i) (hn : i < n) : pxWfFrom lo n (toggleCell i px) = true := by
  induction px generalizing lo with
  | nil => simp [toggleCell, pxWfFrom, hlo, hn]
  | cons j px ih =>
    have hp' := hp
    simp only [pxWfFrom_cons] at hp
    unfold toggleCell
    split
    · simp only [pxWfFrom_cons]; exact ⟨hlo, hn, by omega, hp.2⟩
    · split
      · exact pxWfFrom_mono (by omega) hp.2.2
      · simp only [pxWfFrom_cons]; exact ⟨hp.1, hp.2.1, ih hp.2.2 (by omega)⟩

/-- Turning one cell over changes that cell and no other. -/
theorem cellOn_toggleCell {lo n : Nat} (i c : Nat) {px : List Nat} (hp : pxWfFrom lo n px = true) :
    cellOn (toggleCell i px) c = (cellOn px c ^^ decide (c = i)) := by
  induction px generalizing lo with
  | nil => simp [toggleCell, cellOn]
  | cons j px ih =>
    simp only [pxWfFrom_cons] at hp
    unfold toggleCell
    split
    · rw [cellOn_cons]
      by_cases h : c = i
      · subst h
        have : cellOn px c = false := cellOn_of_lt hp.2.2 (by omega)
        have : c ≠ j := by omega
        simp [cellOn_cons, *]
      · simp [h]
    · split
      · subst_vars
        by_cases h : c = j
        · subst h
          simp [cellOn_cons, cellOn_of_lt hp.2.2 (Nat.lt_succ_self c)]
        · simp [cellOn_cons, h]
      · rw [cellOn_cons, cellOn_cons, ih hp.2.2]
        by_cases h : c = j
        · subst h
          have : c ≠ i := by omega
          simp [this]
        · simp [h]

theorem xorCells_append (a b : List Nat) (r : List Nat × Bool) :
    xorCells (a ++ b) r = xorCells b (xorCells a r) := by
  induction a generalizing r with
  | nil => rfl
  | cons i a ih => obtain ⟨px, hit⟩ := r; exact ih _

theorem pxWfFrom_xorCells {n : Nat} {cells px : List Nat} {hit : Bool}
    (hp : pxWfFrom 0 n px = true) (hc : ∀ i ∈ cells, i < n) :
    pxWfFrom 0 n (xorCells cells (px, hit)).1 = true := by
  induction cells generalizing px hit with
  | nil => exact hp
  | cons i cells ih =>
    exact ih (pxWfFrom_toggleCell hp (Nat.zero_le _) (hc i (by simp)))
      (fun j hj => hc j (by simp [hj]))

/-- Each cell is turned over once for each time it is listed. -/
theorem cellOn_xorCells {n : Nat} {cells px : List Nat} {hit : Bool} (c : Nat)
    (hp : pxWfFrom 0 n px = true) (hc : ∀ i ∈ cells, i < n) :
    cellOn (xorCells cells (px, hit)).1 c = (cellOn px c ^^ (cells.count c % 2 == 1)) := by
  induction cells generalizing px hit with
  | nil => simp [xorCells]
  | cons i cells ih =>
    rw [xorCells, ih (pxWfFrom_toggleCell hp (Nat.zero_le _) (hc i (by simp)))
      (fun j hj => hc j (by simp [hj])), cellOn_toggleCell i c hp, List.count_cons, Bool.xor_assoc]
    congr 1
    by_cases h : c = i
    · subst h
      simp
      rcases Nat.mod_two_eq_zero_or_one (cells.count c) with e | e <;> simp [e, Nat.add_mod]
    · simp [h, Ne.symm h]

/-- Canonical pixel lists with the same cells on are the same list. -/
theorem px_ext {lo n : Nat} {px px' : List Nat} (hp : pxWfFrom lo n px = true)
    (hp' : pxWfFrom lo n px' = true) (h : ∀ c, cellOn px c = cellOn px' c) : px = px' := by
  induction px generalizing lo px' with
  | nil =>
    cases px' with
    | nil => rfl
    | cons j px' => have := h j; simp [cellOn] at this
  | cons i px ih =>
    cases px' with
    | nil => have := h i; simp [cellOn] at this
    | cons j px' =>
      simp only [pxWfFrom_cons] at hp hp'
      have hij : i = j := by
        rcases Nat.lt_trichotomy i j with lt | eq | gt
        · have := h i
          rw [cellOn_cons, cellOn_cons, cellOn_of_lt hp'.2.2 (by omega)] at this
          simp at this; omega
        · exact eq
        · have := h j
          rw [cellOn_cons, cellOn_cons, cellOn_of_lt hp.2.2 (by omega)] at this
          simp at this; omega
      subst hij
      rw [ih hp.2.2 hp'.2.2]
      intro c
      have := h c
      rw [cellOn_cons, cellOn_cons] at this
      by_cases e : c = i
      · subst e
        rw [cellOn_of_lt hp.2.2 (by omega), cellOn_of_lt hp'.2.2 (by omega)]
      · simpa [e] using this

/-! ### Where a sprite's cells lie -/

theorem placeOnAxis_lt {clip : Bool} {size p q : Nat} (hs : 0 < size)
    (h : placeOnAxis clip size p = some q) : q < size := by
  unfold placeOnAxis at h
  split at h
  · injection h; omega
  · split at h
    · cases h
    · injection h; subst_vars; exact Nat.mod_lt _ hs

theorem rowColumns_lt {c : Config} {x0 x : Nat} {row : Byte} (hw : 0 < c.displayW)
    (h : x ∈ rowColumns c x0 row) : x < c.displayW := by
  simp only [rowColumns, List.mem_filterMap] at h
  obtain ⟨col, -, h⟩ := h
  split at h
  · exact placeOnAxis_lt hw h
  · cases h

/-- Every cell a sprite falls on is a cell of the grid. -/
theorem spriteCells_lt {c : Config} (hw : 0 < c.displayW) (hh : 0 < c.displayH) {x0 y0 i : Nat}
    {rows : List Byte} (h : i ∈ spriteCells c x0 y0 rows) : i < c.displayW * c.displayH := by
  induction rows generalizing y0 with
  | nil => cases h
  | cons row rows ih =>
    simp only [spriteCells, List.mem_append] at h
    rcases h with h | h
    · unfold rowCells at h
      split at h
      · rename_i y' hy
        simp only [List.mem_map] at h
        obtain ⟨x, hx, rfl⟩ := h
        have h1 := rowColumns_lt hw hx
        have h2 := placeOnAxis_lt hh hy
        calc y' * c.displayW + x < y' * c.displayW + c.displayW := by omega
          _ = (y' + 1) * c.displayW := by rw [Nat.add_mul, Nat.one_mul]
          _ ≤ c.displayH * c.displayW := Nat.mul_le_mul_right _ h2
          _ = c.displayW * c.displayH := Nat.mul_comm _ _
      · cases h
    · exact ih h

end Sys2Proof.Machine
end

