-- ==== Sys2Proof/Laws/State.lean ====
section
/-! SUPPORT. For each named update of State: one lemma per field it leaves, and what the fields it
changes become, so that no later proof unfolds a record update. -/

namespace Sys2Proof.Machine

/-! `setReg` changes the register file alone. -/

@[simp] theorem State.setReg_i (s : State) (x : Nibble) (b : Byte) : (s.setReg x b).i = s.i := rfl
@[simp] theorem State.setReg_pc (s : State) (x : Nibble) (b : Byte) : (s.setReg x b).pc = s.pc := rfl
@[simp] theorem State.setReg_sp (s : State) (x : Nibble) (b : Byte) : (s.setReg x b).sp = s.sp := rfl
@[simp] theorem State.setReg_stack (s : State) (x : Nibble) (b : Byte) : (s.setReg x b).stack = s.stack := rfl
@[simp] theorem State.setReg_dt (s : State) (x : Nibble) (b : Byte) : (s.setReg x b).dt = s.dt := rfl
@[simp] theorem State.setReg_st (s : State) (x : Nibble) (b : Byte) : (s.setReg x b).st = s.st := rfl
@[simp] theorem State.setReg_keys (s : State) (x : Nibble) (b : Byte) : (s.setReg x b).keys = s.keys := rfl
@[simp] theorem State.setReg_px (s : State) (x : Nibble) (b : Byte) : (s.setReg x b).px = s.px := rfl
@[simp] theorem State.setReg_redraw (s : State) (x : Nibble) (b : Byte) : (s.setReg x b).redraw = s.redraw := rfl
@[simp] theorem State.setReg_kwState (s : State) (x : Nibble) (b : Byte) : (s.setReg x b).kwState = s.kwState := rfl
@[simp] theorem State.setReg_kwKey (s : State) (x : Nibble) (b : Byte) : (s.setReg x b).kwKey = s.kwKey := rfl
@[simp] theorem State.setReg_runState (s : State) (x : Nibble) (b : Byte) : (s.setReg x b).runState = s.runState := rfl
@[simp] theorem State.setReg_faultCause (s : State) (x : Nibble) (b : Byte) : (s.setReg x b).faultCause = s.faultCause := rfl
@[simp] theorem State.setReg_mem (s : State) (x : Nibble) (b : Byte) : (s.setReg x b).mem = s.mem := rfl
@[simp] theorem State.setReg_cfg (s : State) (x : Nibble) (b : Byte) : (s.setReg x b).cfg = s.cfg := rfl
@[simp] theorem State.setReg_batch (s : State) (x : Nibble) (b : Byte) : (s.setReg x b).batch = s.batch := rfl
@[simp] theorem State.setReg_rndIn (s : State) (x : Nibble) (b : Byte) : (s.setReg x b).rndIn = s.rndIn := rfl
@[simp] theorem State.setReg_draws (s : State) (x : Nibble) (b : Byte) : (s.setReg x b).draws = s.draws := rfl
@[simp] theorem State.setReg_pending (s : State) (x : Nibble) (b : Byte) : (s.setReg x b).pending = s.pending := rfl

/-! `faulted` changes the run state and the fault cause alone. -/

@[simp] theorem State.faulted_v (s : State) (c : FaultCause) : (s.faulted c).v = s.v := rfl
@[simp] theorem State.faulted_i (s : State) (c : FaultCause) : (s.faulted c).i = s.i := rfl
@[simp] theorem State.faulted_pc (s : State) (c : FaultCause) : (s.faulted c).pc = s.pc := rfl
@[simp] theorem State.faulted_sp (s : State) (c : FaultCause) : (s.faulted c).sp = s.sp := rfl
@[simp] theorem State.faulted_stack (s : State) (c : FaultCause) : (s.faulted c).stack = s.stack := rfl
@[simp] theorem State.faulted_dt (s : State) (c : FaultCause) : (s.faulted c).dt = s.dt := rfl
@[simp] theorem State.faulted_st (s : State) (c : FaultCause) : (s.faulted c).st = s.st := rfl
@[simp] theorem State.faulted_keys (s : State) (c : FaultCause) : (s.faulted c).keys = s.keys := rfl
@[simp] theorem State.faulted_px (s : State) (c : FaultCause) : (s.faulted c).px = s.px := rfl
@[simp] theorem State.faulted_redraw (s : State) (c : FaultCause) : (s.faulted c).redraw = s.redraw := rfl
@[simp] theorem State.faulted_kwState (s : State) (c : FaultCause) : (s.faulted c).kwState = s.kwState := rfl
@[simp] theorem State.faulted_kwKey (s : State) (c : FaultCause) : (s.faulted c).kwKey = s.kwKey := rfl
@[simp] theorem State.faulted_runState (s : State) (c : FaultCause) : (s.faulted c).runState = .fault := rfl
@[simp] theorem State.faulted_faultCause (s : State) (c : FaultCause) : (s.faulted c).faultCause = c := rfl
@[simp] theorem State.faulted_mem (s : State) (c : FaultCause) : (s.faulted c).mem = s.mem := rfl
@[simp] theorem State.faulted_cfg (s : State) (c : FaultCause) : (s.faulted c).cfg = s.cfg := rfl
@[simp] theorem State.faulted_batch (s : State) (c : FaultCause) : (s.faulted c).batch = s.batch := rfl
@[simp] theorem State.faulted_rndIn (s : State) (c : FaultCause) : (s.faulted c).rndIn = s.rndIn := rfl
@[simp] theorem State.faulted_draws (s : State) (c : FaultCause) : (s.faulted c).draws = s.draws := rfl
@[simp] theorem State.faulted_pending (s : State) (c : FaultCause) : (s.faulted c).pending = s.pending := rfl

/-! `setFlag` changes the register file alone. -/

@[simp] theorem State.setFlag_i (s : State) (b : Bool) : (s.setFlag b).i = s.i := rfl
@[simp] theorem State.setFlag_pc (s : State) (b : Bool) : (s.setFlag b).pc = s.pc := rfl
@[simp] theorem State.setFlag_sp (s : State) (b : Bool) : (s.setFlag b).sp = s.sp := rfl
@[simp] theorem State.setFlag_stack (s : State) (b : Bool) : (s.setFlag b).stack = s.stack := rfl
@[simp] theorem State.setFlag_dt (s : State) (b : Bool) : (s.setFlag b).dt = s.dt := rfl
@[simp] theorem State.setFlag_st (s : State) (b : Bool) : (s.setFlag b).st = s.st := rfl
@[simp] theorem State.setFlag_keys (s : State) (b : Bool) : (s.setFlag b).keys = s.keys := rfl
@[simp] theorem State.setFlag_px (s : State) (b : Bool) : (s.setFlag b).px = s.px := rfl
@[simp] theorem State.setFlag_redraw (s : State) (b : Bool) : (s.setFlag b).redraw = s.redraw := rfl
@[simp] theorem State.setFlag_kwState (s : State) (b : Bool) : (s.setFlag b).kwState = s.kwState := rfl
@[simp] theorem State.setFlag_kwKey (s : State) (b : Bool) : (s.setFlag b).kwKey = s.kwKey := rfl
@[simp] theorem State.setFlag_runState (s : State) (b : Bool) : (s.setFlag b).runState = s.runState := rfl
@[simp] theorem State.setFlag_faultCause (s : State) (b : Bool) : (s.setFlag b).faultCause = s.faultCause := rfl
@[simp] theorem State.setFlag_mem (s : State) (b : Bool) : (s.setFlag b).mem = s.mem := rfl
@[simp] theorem State.setFlag_cfg (s : State) (b : Bool) : (s.setFlag b).cfg = s.cfg := rfl
@[simp] theorem State.setFlag_batch (s : State) (b : Bool) : (s.setFlag b).batch = s.batch := rfl
@[simp] theorem State.setFlag_rndIn (s : State) (b : Bool) : (s.setFlag b).rndIn = s.rndIn := rfl
@[simp] theorem State.setFlag_draws (s : State) (b : Bool) : (s.setFlag b).draws = s.draws := rfl
@[simp] theorem State.setFlag_pending (s : State) (b : Bool) : (s.setFlag b).pending = s.pending := rfl

/-! `loadRegs` changes the register file alone. -/

@[simp] theorem State.loadRegs_i (s : State) (x : Nibble) (a : Nat) : (s.loadRegs x a).i = s.i := rfl
@[simp] theorem State.loadRegs_pc (s : State) (x : Nibble) (a : Nat) : (s.loadRegs x a).pc = s.pc := rfl
@[simp] theorem State.loadRegs_sp (s : State) (x : Nibble) (a : Nat) : (s.loadRegs x a).sp = s.sp := rfl
@[simp] theorem State.loadRegs_stack (s : State) (x : Nibble) (a : Nat) : (s.loadRegs x a).stack = s.stack := rfl
@[simp] theorem State.loadRegs_dt (s : State) (x : Nibble) (a : Nat) : (s.loadRegs x a).dt = s.dt := rfl
@[simp] theorem State.loadRegs_st (s : State) (x : Nibble) (a : Nat) : (s.loadRegs x a).st = s.st := rfl
@[simp] theorem State.loadRegs_keys (s : State) (x : Nibble) (a : Nat) : (s.loadRegs x a).keys = s.keys := rfl
@[simp] theorem State.loadRegs_px (s : State) (x : Nibble) (a : Nat) : (s.loadRegs x a).px = s.px := rfl
@[simp] theorem State.loadRegs_redraw (s : State) (x : Nibble) (a : Nat) : (s.loadRegs x a).redraw = s.redraw := rfl
@[simp] theorem State.loadRegs_kwState (s : State) (x : Nibble) (a : Nat) : (s.loadRegs x a).kwState = s.kwState := rfl
@[simp] theorem State.loadRegs_kwKey (s : State) (x : Nibble) (a : Nat) : (s.loadRegs x a).kwKey = s.kwKey := rfl
@[simp] theorem State.loadRegs_runState (s : State) (x : Nibble) (a : Nat) : (s.loadRegs x a).runState = s.runState := rfl
@[simp] theorem State.loadRegs_faultCause (s : State) (x : Nibble) (a : Nat) : (s.loadRegs x a).faultCause = s.faultCause := rfl
@[simp] theorem State.loadRegs_mem (s : State) (x : Nibble) (a : Nat) : (s.loadRegs x a).mem = s.mem := rfl
@[simp] theorem State.loadRegs_cfg (s : State) (x : Nibble) (a : Nat) : (s.loadRegs x a).cfg = s.cfg := rfl
@[simp] theorem State.loadRegs_batch (s : State) (x : Nibble) (a : Nat) : (s.loadRegs x a).batch = s.batch := rfl
@[simp] theorem State.loadRegs_rndIn (s : State) (x : Nibble) (a : Nat) : (s.loadRegs x a).rndIn = s.rndIn := rfl
@[simp] theorem State.loadRegs_draws (s : State) (x : Nibble) (a : Nat) : (s.loadRegs x a).draws = s.draws := rfl
@[simp] theorem State.loadRegs_pending (s : State) (x : Nibble) (a : Nat) : (s.loadRegs x a).pending = s.pending := rfl

/-! `drawn` changes the pixel buffer, the redraw flag and VF alone. -/

@[simp] theorem State.drawn_i (s : State) (cells : List Nat) : (s.drawn cells).i = s.i := rfl
@[simp] theorem State.drawn_pc (s : State) (cells : List Nat) : (s.drawn cells).pc = s.pc := rfl
@[simp] theorem State.drawn_sp (s : State) (cells : List Nat) : (s.drawn cells).sp = s.sp := rfl
@[simp] theorem State.drawn_stack (s : State) (cells : List Nat) : (s.drawn cells).stack = s.stack := rfl
@[simp] theorem State.drawn_dt (s : State) (cells : List Nat) : (s.drawn cells).dt = s.dt := rfl
@[simp] theorem State.drawn_st (s : State) (cells : List Nat) : (s.drawn cells).st = s.st := rfl
@[simp] theorem State.drawn_keys (s : State) (cells : List Nat) : (s.drawn cells).keys = s.keys := rfl
@[simp] theorem State.drawn_px (s : State) (cells : List Nat) : (s.drawn cells).px = (xorCells cells (s.px, false)).1 := rfl
@[simp] theorem State.drawn_redraw (s : State) (cells : List Nat) : (s.drawn cells).redraw = true := rfl
@[simp] theorem State.drawn_kwState (s : State) (cells : List Nat) : (s.drawn cells).kwState = s.kwState := rfl
@[simp] theorem State.drawn_kwKey (s : State) (cells : List Nat) : (s.drawn cells).kwKey = s.kwKey := rfl
@[simp] theorem State.drawn_runState (s : State) (cells : List Nat) : (s.drawn cells).runState = s.runState := rfl
@[simp] theorem State.drawn_faultCause (s : State) (cells : List Nat) : (s.drawn cells).faultCause = s.faultCause := rfl
@[simp] theorem State.drawn_mem (s : State) (cells : List Nat) : (s.drawn cells).mem = s.mem := rfl
@[simp] theorem State.drawn_cfg (s : State) (cells : List Nat) : (s.drawn cells).cfg = s.cfg := rfl
@[simp] theorem State.drawn_batch (s : State) (cells : List Nat) : (s.drawn cells).batch = s.batch := rfl
@[simp] theorem State.drawn_rndIn (s : State) (cells : List Nat) : (s.drawn cells).rndIn = s.rndIn := rfl
@[simp] theorem State.drawn_draws (s : State) (cells : List Nat) : (s.drawn cells).draws = s.draws := rfl
@[simp] theorem State.drawn_pending (s : State) (cells : List Nat) : (s.drawn cells).pending = s.pending := rfl

/-! `advancePc` changes pc alone. -/

@[simp] theorem State.advancePc_v (s : State) : (s.advancePc).v = s.v := rfl
@[simp] theorem State.advancePc_i (s : State) : (s.advancePc).i = s.i := rfl
@[simp] theorem State.advancePc_pc (s : State) : (s.advancePc).pc = s.pc + 2 := rfl
@[simp] theorem State.advancePc_sp (s : State) : (s.advancePc).sp = s.sp := rfl
@[simp] theorem State.advancePc_stack (s : State) : (s.advancePc).stack = s.stack := rfl
@[simp] theorem State.advancePc_dt (s : State) : (s.advancePc).dt = s.dt := rfl
@[simp] theorem State.advancePc_st (s : State) : (s.advancePc).st = s.st := rfl
@[simp] theorem State.advancePc_keys (s : State) : (s.advancePc).keys = s.keys := rfl
@[simp] theorem State.advancePc_px (s : State) : (s.advancePc).px = s.px := rfl
@[simp] theorem State.advancePc_redraw (s : State) : (s.advancePc).redraw = s.redraw := rfl
@[simp] theorem State.advancePc_kwState (s : State) : (s.advancePc).kwState = s.kwState := rfl
@[simp] theorem State.advancePc_kwKey (s : State) : (s.advancePc).kwKey = s.kwKey := rfl
@[simp] theorem State.advancePc_runState (s : State) : (s.advancePc).runState = s.runState := rfl
@[simp] theorem State.advancePc_faultCause (s : State) : (s.advancePc).faultCause = s.faultCause := rfl
@[simp] theorem State.advancePc_mem (s : State) : (s.advancePc).mem = s.mem := rfl
@[simp] theorem State.advancePc_cfg (s : State) : (s.advancePc).cfg = s.cfg := rfl
@[simp] theorem State.advancePc_batch (s : State) : (s.advancePc).batch = s.batch := rfl
@[simp] theorem State.advancePc_rndIn (s : State) : (s.advancePc).rndIn = s.rndIn := rfl
@[simp] theorem State.advancePc_draws (s : State) : (s.advancePc).draws = s.draws := rfl
@[simp] theorem State.advancePc_pending (s : State) : (s.advancePc).pending = s.pending := rfl

/-! `beginCycle` changes the model's record of the cycle alone. -/

@[simp] theorem State.beginCycle_v (s : State) (r : Option Byte) : (s.beginCycle r).v = s.v := rfl
@[simp] theorem State.beginCycle_i (s : State) (r : Option Byte) : (s.beginCycle r).i = s.i := rfl
@[simp] theorem State.beginCycle_pc (s : State) (r : Option Byte) : (s.beginCycle r).pc = s.pc := rfl
@[simp] theorem State.beginCycle_sp (s : State) (r : Option Byte) : (s.beginCycle r).sp = s.sp := rfl
@[simp] theorem State.beginCycle_stack (s : State) (r : Option Byte) : (s.beginCycle r).stack = s.stack := rfl
@[simp] theorem State.beginCycle_dt (s : State) (r : Option Byte) : (s.beginCycle r).dt = s.dt := rfl
@[simp] theorem State.beginCycle_st (s : State) (r : Option Byte) : (s.beginCycle r).st = s.st := rfl
@[simp] theorem State.beginCycle_keys (s : State) (r : Option Byte) : (s.beginCycle r).keys = s.keys := rfl
@[simp] theorem State.beginCycle_px (s : State) (r : Option Byte) : (s.beginCycle r).px = s.px := rfl
@[simp] theorem State.beginCycle_redraw (s : State) (r : Option Byte) : (s.beginCycle r).redraw = s.redraw := rfl
@[simp] theorem State.beginCycle_kwState (s : State) (r : Option Byte) : (s.beginCycle r).kwState = s.kwState := rfl
@[simp] theorem State.beginCycle_kwKey (s : State) (r : Option Byte) : (s.beginCycle r).kwKey = s.kwKey := rfl
@[simp] theorem State.beginCycle_runState (s : State) (r : Option Byte) : (s.beginCycle r).runState = s.runState := rfl
@[simp] theorem State.beginCycle_faultCause (s : State) (r : Option Byte) : (s.beginCycle r).faultCause = s.faultCause := rfl
@[simp] theorem State.beginCycle_mem (s : State) (r : Option Byte) : (s.beginCycle r).mem = s.mem := rfl
@[simp] theorem State.beginCycle_cfg (s : State) (r : Option Byte) : (s.beginCycle r).cfg = s.cfg := rfl
@[simp] theorem State.beginCycle_batch (s : State) (r : Option Byte) : (s.beginCycle r).batch = s.batch + 1 := rfl
@[simp] theorem State.beginCycle_rndIn (s : State) (r : Option Byte) : (s.beginCycle r).rndIn = r := rfl
@[simp] theorem State.beginCycle_draws (s : State) (r : Option Byte) : (s.beginCycle r).draws = s.draws := rfl
@[simp] theorem State.beginCycle_pending (s : State) (r : Option Byte) : (s.beginCycle r).pending = s.pending := rfl

/-! `tick` changes the timers and the arbiter's count alone. -/

@[simp] theorem tick_v (s : State) : (tick s).v = s.v := rfl
@[simp] theorem tick_i (s : State) : (tick s).i = s.i := rfl
@[simp] theorem tick_pc (s : State) : (tick s).pc = s.pc := rfl
@[simp] theorem tick_sp (s : State) : (tick s).sp = s.sp := rfl
@[simp] theorem tick_stack (s : State) : (tick s).stack = s.stack := rfl
@[simp] theorem tick_dt (s : State) : (tick s).dt = countDown s.dt := rfl
@[simp] theorem tick_st (s : State) : (tick s).st = countDown s.st := rfl
@[simp] theorem tick_keys (s : State) : (tick s).keys = s.keys := rfl
@[simp] theorem tick_px (s : State) : (tick s).px = s.px := rfl
@[simp] theorem tick_redraw (s : State) : (tick s).redraw = s.redraw := rfl
@[simp] theorem tick_kwState (s : State) : (tick s).kwState = s.kwState := rfl
@[simp] theorem tick_kwKey (s : State) : (tick s).kwKey = s.kwKey := rfl
@[simp] theorem tick_runState (s : State) : (tick s).runState = s.runState := rfl
@[simp] theorem tick_faultCause (s : State) : (tick s).faultCause = s.faultCause := rfl
@[simp] theorem tick_mem (s : State) : (tick s).mem = s.mem := rfl
@[simp] theorem tick_cfg (s : State) : (tick s).cfg = s.cfg := rfl
@[simp] theorem tick_batch (s : State) : (tick s).batch = 0 := rfl
@[simp] theorem tick_rndIn (s : State) : (tick s).rndIn = s.rndIn := rfl
@[simp] theorem tick_draws (s : State) : (tick s).draws = s.draws := rfl
@[simp] theorem tick_pending (s : State) : (tick s).pending = s.pending := rfl

/-! `keyWrite` changes the keypad latch alone. -/

@[simp] theorem keyWrite_v (s : State) (k : Nibble) (b : Bool) : (keyWrite k b s).v = s.v := rfl
@[simp] theorem keyWrite_i (s : State) (k : Nibble) (b : Bool) : (keyWrite k b s).i = s.i := rfl
@[simp] theorem keyWrite_pc (s : State) (k : Nibble) (b : Bool) : (keyWrite k b s).pc = s.pc := rfl
@[simp] theorem keyWrite_sp (s : State) (k : Nibble) (b : Bool) : (keyWrite k b s).sp = s.sp := rfl
@[simp] theorem keyWrite_stack (s : State) (k : Nibble) (b : Bool) : (keyWrite k b s).stack = s.stack := rfl
@[simp] theorem keyWrite_dt (s : State) (k : Nibble) (b : Bool) : (keyWrite k b s).dt = s.dt := rfl
@[simp] theorem keyWrite_st (s : State) (k : Nibble) (b : Bool) : (keyWrite k b s).st = s.st := rfl
@[simp] theorem keyWrite_px (s : State) (k : Nibble) (b : Bool) : (keyWrite k b s).px = s.px := rfl
@[simp] theorem keyWrite_redraw (s : State) (k : Nibble) (b : Bool) : (keyWrite k b s).redraw = s.redraw := rfl
@[simp] theorem keyWrite_kwState (s : State) (k : Nibble) (b : Bool) : (keyWrite k b s).kwState = s.kwState := rfl
@[simp] theorem keyWrite_kwKey (s : State) (k : Nibble) (b : Bool) : (keyWrite k b s).kwKey = s.kwKey := rfl
@[simp] theorem keyWrite_runState (s : State) (k : Nibble) (b : Bool) : (keyWrite k b s).runState = s.runState := rfl
@[simp] theorem keyWrite_faultCause (s : State) (k : Nibble) (b : Bool) : (keyWrite k b s).faultCause = s.faultCause := rfl
@[simp] theorem keyWrite_mem (s : State) (k : Nibble) (b : Bool) : (keyWrite k b s).mem = s.mem := rfl
@[simp] theorem keyWrite_cfg (s : State) (k : Nibble) (b : Bool) : (keyWrite k b s).cfg = s.cfg := rfl
@[simp] theorem keyWrite_batch (s : State) (k : Nibble) (b : Bool) : (keyWrite k b s).batch = s.batch := rfl
@[simp] theorem keyWrite_rndIn (s : State) (k : Nibble) (b : Bool) : (keyWrite k b s).rndIn = s.rndIn := rfl
@[simp] theorem keyWrite_draws (s : State) (k : Nibble) (b : Bool) : (keyWrite k b s).draws = s.draws := rfl
@[simp] theorem keyWrite_pending (s : State) (k : Nibble) (b : Bool) : (keyWrite k b s).pending = s.pending := rfl

/-! `redrawAck` changes the redraw flag alone. -/

@[simp] theorem redrawAck_v (s : State) : (redrawAck s).v = s.v := rfl
@[simp] theorem redrawAck_i (s : State) : (redrawAck s).i = s.i := rfl
@[simp] theorem redrawAck_pc (s : State) : (redrawAck s).pc = s.pc := rfl
@[simp] theorem redrawAck_sp (s : State) : (redrawAck s).sp = s.sp := rfl
@[simp] theorem redrawAck_stack (s : State) : (redrawAck s).stack = s.stack := rfl
@[simp] theorem redrawAck_dt (s : State) : (redrawAck s).dt = s.dt := rfl
@[simp] theorem redrawAck_st (s : State) : (redrawAck s).st = s.st := rfl
@[simp] theorem redrawAck_keys (s : State) : (redrawAck s).keys = s.keys := rfl
@[simp] theorem redrawAck_px (s : State) : (redrawAck s).px = s.px := rfl
@[simp] theorem redrawAck_redraw (s : State) : (redrawAck s).redraw = false := rfl
@[simp] theorem redrawAck_kwState (s : State) : (redrawAck s).kwState = s.kwState := rfl
@[simp] theorem redrawAck_kwKey (s : State) : (redrawAck s).kwKey = s.kwKey := rfl
@[simp] theorem redrawAck_runState (s : State) : (redrawAck s).runState = s.runState := rfl
@[simp] theorem redrawAck_faultCause (s : State) : (redrawAck s).faultCause = s.faultCause := rfl
@[simp] theorem redrawAck_mem (s : State) : (redrawAck s).mem = s.mem := rfl
@[simp] theorem redrawAck_cfg (s : State) : (redrawAck s).cfg = s.cfg := rfl
@[simp] theorem redrawAck_batch (s : State) : (redrawAck s).batch = s.batch := rfl
@[simp] theorem redrawAck_rndIn (s : State) : (redrawAck s).rndIn = s.rndIn := rfl
@[simp] theorem redrawAck_draws (s : State) : (redrawAck s).draws = s.draws := rfl
@[simp] theorem redrawAck_pending (s : State) : (redrawAck s).pending = s.pending := rfl

/-! `resetFlag` changes the register file alone. -/

@[simp] theorem State.resetFlag_i (s : State) : (s.resetFlag).i = s.i := by
  unfold State.resetFlag; split <;> rfl
@[simp] theorem State.resetFlag_pc (s : State) : (s.resetFlag).pc = s.pc := by
  unfold State.resetFlag; split <;> rfl
@[simp] theorem State.resetFlag_sp (s : State) : (s.resetFlag).sp = s.sp := by
  unfold State.resetFlag; split <;> rfl
@[simp] theorem State.resetFlag_stack (s : State) : (s.resetFlag).stack = s.stack := by
  unfold State.resetFlag; split <;> rfl
@[simp] theorem State.resetFlag_dt (s : State) : (s.resetFlag).dt = s.dt := by
  unfold State.resetFlag; split <;> rfl
@[simp] theorem State.resetFlag_st (s : State) : (s.resetFlag).st = s.st := by
  unfold State.resetFlag; split <;> rfl
@[simp] theorem State.resetFlag_keys (s : State) : (s.resetFlag).keys = s.keys := by
  unfold State.resetFlag; split <;> rfl
@[simp] theorem State.resetFlag_px (s : State) : (s.resetFlag).px = s.px := by
  unfold State.resetFlag; split <;> rfl
@[simp] theorem State.resetFlag_redraw (s : State) : (s.resetFlag).redraw = s.redraw := by
  unfold State.resetFlag; split <;> rfl
@[simp] theorem State.resetFlag_kwState (s : State) : (s.resetFlag).kwState = s.kwState := by
  unfold State.resetFlag; split <;> rfl
@[simp] theorem State.resetFlag_kwKey (s : State) : (s.resetFlag).kwKey = s.kwKey := by
  unfold State.resetFlag; split <;> rfl
@[simp] theorem State.resetFlag_runState (s : State) : (s.resetFlag).runState = s.runState := by
  unfold State.resetFlag; split <;> rfl
@[simp] theorem State.resetFlag_faultCause (s : State) : (s.resetFlag).faultCause = s.faultCause := by
  unfold State.resetFlag; split <;> rfl
@[simp] theorem State.resetFlag_mem (s : State) : (s.resetFlag).mem = s.mem := by
  unfold State.resetFlag; split <;> rfl
@[simp] theorem State.resetFlag_cfg (s : State) : (s.resetFlag).cfg = s.cfg := by
  unfold State.resetFlag; split <;> rfl
@[simp] theorem State.resetFlag_batch (s : State) : (s.resetFlag).batch = s.batch := by
  unfold State.resetFlag; split <;> rfl
@[simp] theorem State.resetFlag_rndIn (s : State) : (s.resetFlag).rndIn = s.rndIn := by
  unfold State.resetFlag; split <;> rfl
@[simp] theorem State.resetFlag_draws (s : State) : (s.resetFlag).draws = s.draws := by
  unfold State.resetFlag; split <;> rfl
@[simp] theorem State.resetFlag_pending (s : State) : (s.resetFlag).pending = s.pending := by
  unfold State.resetFlag; split <;> rfl

/-! `awaitPress` changes the key-wait state and pc alone. -/

@[simp] theorem State.awaitPress_v (s : State) : (s.awaitPress).v = s.v := by
  unfold State.awaitPress; split <;> rfl
@[simp] theorem State.awaitPress_i (s : State) : (s.awaitPress).i = s.i := by
  unfold State.awaitPress; split <;> rfl
@[simp] theorem State.awaitPress_sp (s : State) : (s.awaitPress).sp = s.sp := by
  unfold State.awaitPress; split <;> rfl
@[simp] theorem State.awaitPress_stack (s : State) : (s.awaitPress).stack = s.stack := by
  unfold State.awaitPress; split <;> rfl
@[simp] theorem State.awaitPress_dt (s : State) : (s.awaitPress).dt = s.dt := by
  unfold State.awaitPress; split <;> rfl
@[simp] theorem State.awaitPress_st (s : State) : (s.awaitPress).st = s.st := by
  unfold State.awaitPress; split <;> rfl
@[simp] theorem State.awaitPress_keys (s : State) : (s.awaitPress).keys = s.keys := by
  unfold State.awaitPress; split <;> rfl
@[simp] theorem State.awaitPress_px (s : State) : (s.awaitPress).px = s.px := by
  unfold State.awaitPress; split <;> rfl
@[simp] theorem State.awaitPress_redraw (s : State) : (s.awaitPress).redraw = s.redraw := by
  unfold State.awaitPress; split <;> rfl
@[simp] theorem State.awaitPress_runState (s : State) : (s.awaitPress).runState = s.runState := by
  unfold State.awaitPress; split <;> rfl
@[simp] theorem State.awaitPress_faultCause (s : State) : (s.awaitPress).faultCause = s.faultCause := by
  unfold State.awaitPress; split <;> rfl
@[simp] theorem State.awaitPress_mem (s : State) : (s.awaitPress).mem = s.mem := by
  unfold State.awaitPress; split <;> rfl
@[simp] theorem State.awaitPress_cfg (s : State) : (s.awaitPress).cfg = s.cfg := by
  unfold State.awaitPress; split <;> rfl
@[simp] theorem State.awaitPress_batch (s : State) : (s.awaitPress).batch = s.batch := by
  unfold State.awaitPress; split <;> rfl
@[simp] theorem State.awaitPress_rndIn (s : State) : (s.awaitPress).rndIn = s.rndIn := by
  unfold State.awaitPress; split <;> rfl
@[simp] theorem State.awaitPress_draws (s : State) : (s.awaitPress).draws = s.draws := by
  unfold State.awaitPress; split <;> rfl
@[simp] theorem State.awaitPress_pending (s : State) : (s.awaitPress).pending = s.pending := by
  unfold State.awaitPress; split <;> rfl

/-! `awaitRelease` changes the register file, kw_state and pc alone. -/

@[simp] theorem State.awaitRelease_i (s : State) (x : Nibble) : (s.awaitRelease x).i = s.i := by
  unfold State.awaitRelease; split <;> rfl
@[simp] theorem State.awaitRelease_sp (s : State) (x : Nibble) : (s.awaitRelease x).sp = s.sp := by
  unfold State.awaitRelease; split <;> rfl
@[simp] theorem State.awaitRelease_stack (s : State) (x : Nibble) : (s.awaitRelease x).stack = s.stack := by
  unfold State.awaitRelease; split <;> rfl
@[simp] theorem State.awaitRelease_dt (s : State) (x : Nibble) : (s.awaitRelease x).dt = s.dt := by
  unfold State.awaitRelease; split <;> rfl
@[simp] theorem State.awaitRelease_st (s : State) (x : Nibble) : (s.awaitRelease x).st = s.st := by
  unfold State.awaitRelease; split <;> rfl
@[simp] theorem State.awaitRelease_keys (s : State) (x : Nibble) : (s.awaitRelease x).keys = s.keys := by
  unfold State.awaitRelease; split <;> rfl
@[simp] theorem State.awaitRelease_px (s : State) (x : Nibble) : (s.awaitRelease x).px = s.px := by
  unfold State.awaitRelease; split <;> rfl
@[simp] theorem State.awaitRelease_redraw (s : State) (x : Nibble) : (s.awaitRelease x).redraw = s.redraw := by
  unfold State.awaitRelease; split <;> rfl
@[simp] theorem State.awaitRelease_kwKey (s : State) (x : Nibble) : (s.awaitRelease x).kwKey = s.kwKey := by
  unfold State.awaitRelease; split <;> rfl
@[simp] theorem State.awaitRelease_runState (s : State) (x : Nibble) : (s.awaitRelease x).runState = s.runState := by
  unfold State.awaitRelease; split <;> rfl
@[simp] theorem State.awaitRelease_faultCause (s : State) (x : Nibble) : (s.awaitRelease x).faultCause = s.faultCause := by
  unfold State.awaitRelease; split <;> rfl
@[simp] theorem State.awaitRelease_mem (s : State) (x : Nibble) : (s.awaitRelease x).mem = s.mem := by
  unfold State.awaitRelease; split <;> rfl
@[simp] theorem State.awaitRelease_cfg (s : State) (x : Nibble) : (s.awaitRelease x).cfg = s.cfg := by
  unfold State.awaitRelease; split <;> rfl
@[simp] theorem State.awaitRelease_batch (s : State) (x : Nibble) : (s.awaitRelease x).batch = s.batch := by
  unfold State.awaitRelease; split <;> rfl
@[simp] theorem State.awaitRelease_rndIn (s : State) (x : Nibble) : (s.awaitRelease x).rndIn = s.rndIn := by
  unfold State.awaitRelease; split <;> rfl
@[simp] theorem State.awaitRelease_draws (s : State) (x : Nibble) : (s.awaitRelease x).draws = s.draws := by
  unfold State.awaitRelease; split <;> rfl
@[simp] theorem State.awaitRelease_pending (s : State) (x : Nibble) : (s.awaitRelease x).pending = s.pending := by
  unfold State.awaitRelease; split <;> rfl

/-! Reading registers and keys after a write. -/

@[simp] theorem State.reg_setReg (s : State) (x y : Nibble) (b : Byte) :
    (s.setReg x b).reg y = if y = x then b else s.reg y := by
  unfold State.reg State.setReg
  by_cases h : y = x
  · subst h; simp
  · have : x.toNat ≠ y.toNat := fun e => h (BitVec.eq_of_toNat_eq e.symm)
    simp [Vector.getElem_set_ne, this, h]

@[simp] theorem State.key_keyWrite (s : State) (k j : Nibble) (b : Bool) :
    (keyWrite k b s).key j = if j = k then b else s.key j := by
  unfold State.key keyWrite
  by_cases h : j = k
  · subst h; simp
  · have : k.toNat ≠ j.toNat := fun e => h (BitVec.eq_of_toNat_eq e.symm)
    simp [Vector.getElem_set_ne, this, h]

@[simp] theorem State.reg_setFlag (s : State) (y : Nibble) (b : Bool) :
    (s.setFlag b).reg y = if y = regF then flagByte b else s.reg y := by simp [State.setFlag]

theorem State.reg_resetFlag (s : State) (y : Nibble) :
    s.resetFlag.reg y = if s.cfg.qVfReset = true ∧ y = regF then 0 else s.reg y := by
  unfold State.resetFlag
  split <;> simp_all

@[simp] theorem State.reg_loadRegs (s : State) (x y : Nibble) (a : Nat) :
    (s.loadRegs x a).reg y = if y.toNat ≤ x.toNat then Memory.read s.mem (a + y.toNat) else s.reg y := by
  simp [State.reg, State.loadRegs]

/-- Register files are equal when they read the same at every register number. -/
theorem regs_ext (v w : Vector Byte 16) (h : ∀ x : Nibble, v[x.toNat]'x.isLt = w[x.toNat]'x.isLt) :
    v = w := by
  apply Vector.ext
  intro j hj
  have := h (BitVec.ofNat 4 j)
  have e : (BitVec.ofNat 4 j).toNat = j := by simp; omega
  simpa [e] using this

theorem State.setReg_self (s : State) (x : Nibble) : s.setReg x (s.reg x) = s := by
  simp [State.setReg, State.reg]

end Sys2Proof.Machine
end

