-- ==== Sys2Proof/Laws/Ops.lean ====
section
/-! SUPPORT. What each shared operation can answer, said once, and that every instruction completes. -/

namespace Sys2Proof.Machine

/-- `raise` always answers a next state, in Fault. -/
theorem raise_next {c : FaultCause} {s t : State} (h : raise c s = .next t) : t = s.faulted c := by
  injection h with h; exact h.symm

/-- `skipIf` moves pc and does nothing else. -/
theorem skipIf_eq (c : Bool) (s : State) :
    skipIf c s = .next { s with pc := if c = true then s.pc + 2 else s.pc } := by
  cases c <;> rfl

/-- `checkData` goes on inside the address space. -/
theorem checkData_of_le {hi : Nat} (s : State) (go : Result) (h : hi ≤ 4095) : checkData hi s go = go :=
  if_pos h

/-- `checkData` raises DataAddressFault outside it. -/
theorem checkData_of_lt {hi : Nat} (s : State) (go : Result) (h : 4095 < hi) :
    checkData hi s go = .next (s.faulted .dataAddressFault) :=
  if_neg (Nat.not_le.mpr h)

/-- What a checked access that answers next can have done. -/
theorem checkData_next {hi : Nat} {s t : State} {go : Result} (h : checkData hi s go = .next t) :
    (hi ≤ 4095 ∧ go = .next t) ∨ (4095 < hi ∧ t = s.faulted .dataAddressFault) := by
  by_cases hi' : hi ≤ 4095
  · exact .inl ⟨hi', by rwa [checkData_of_le s go hi'] at h⟩
  · rw [checkData_of_lt s go (by omega)] at h
    injection h with h
    exact .inr ⟨by omega, h.symm⟩

/-- What a push that answers next can have done. -/
theorem pushThen_next {w : Word} {s t : State} {go : State → State} (h : pushThen w s go = .next t) :
    (∃ (_ : s.sp.val < s.cfg.stackCapacity.val) (h2 : s.sp.val < 16),
      t = go { s with stack := s.stack.set s.sp.val w h2, sp := ⟨s.sp.val + 1, by omega⟩ }) ∨
    (s.cfg.stackCapacity.val ≤ s.sp.val ∧ t = s.faulted .stackOverflow) := by
  unfold pushThen at h
  split at h
  · injection h with h
    exact .inl ⟨‹_›, by have := s.cfg.stackCapacity.isLt; omega, h.symm⟩
  · exact .inr ⟨by omega, raise_next h⟩

/-- What a pop that answers next can have done. -/
theorem popThen_next {s t : State} {go : Word → State → State} (h : popThen s go = .next t) :
    (∃ (_ : 0 < s.sp.val) (h2 : s.sp.val - 1 < 16),
      t = go s.stack[s.sp.val - 1] { s with sp := ⟨s.sp.val - 1, by omega⟩ }) ∨
    (s.sp.val = 0 ∧ t = s.faulted .stackUnderflow) := by
  unfold popThen at h
  split at h
  · exact .inr ⟨‹_›, raise_next h⟩
  · injection h with h
    exact .inl ⟨by omega, by have := s.sp.isLt; omega, h.symm⟩

/-- What a key skip that answers next can have done. -/
theorem skipIfKey_next {want : Bool} {x : Nibble} {s t : State} (h : skipIfKey want x s = .next t) :
    ((s.reg x).toNat ≤ 15 ∧
      t = { s with pc := if (s.key ((s.reg x).setWidth 4) == want) = true then s.pc + 2 else s.pc }) ∨
    (15 < (s.reg x).toNat ∧ t = s.faulted .keyIndexFault) := by
  unfold skipIfKey at h
  split at h
  · rw [skipIf_eq] at h
    injection h with h
    exact .inl ⟨‹_›, h.symm⟩
  · exact .inr ⟨by omega, raise_next h⟩

/-- What a draw that answers next can have done. -/
theorem execDrwVxVy_next {x y n : Nibble} {s t : State} (h : execDrwVxVy x y n s = .next t) :
    (n.toNat = 0 ∧ t = s.drawn []) ∨
    (0 < n.toNat ∧ s.i.toNat + n.toNat - 1 ≤ 4095 ∧ t = s.drawn (s.drawnCells x y n)) ∨
    (0 < n.toNat ∧ 4095 < s.i.toNat + n.toNat - 1 ∧ t = s.faulted .dataAddressFault) := by
  unfold execDrwVxVy at h
  split at h
  · injection h with h; exact .inl ⟨‹_›, h.symm⟩
  · rcases checkData_next h with ⟨h1, h2⟩ | ⟨h1, h2⟩
    · injection h2 with h2; exact .inr (.inl ⟨by omega, h1, h2.symm⟩)
    · exact .inr (.inr ⟨by omega, h1, h2⟩)

/-- Every instruction, in every state, answers a next state: none ends in a fault or a refusal of the
model. -/
theorem exec_completes (i : Instr) (s : State) : ∃ t, exec i s = .next t := by
  cases i <;> simp only [exec] <;> first
    | exact ⟨_, rfl⟩
    | (unfold execRet popThen; split <;> exact ⟨_, rfl⟩)
    | (unfold execCallAddr pushThen; split <;> exact ⟨_, rfl⟩)
    | exact ⟨_, skipIf_eq _ _⟩
    | (simp only [execSkpVx, execSknpVx]; unfold skipIfKey; split
       · exact ⟨_, skipIf_eq _ _⟩
       · exact ⟨_, rfl⟩)
    | (unfold execLdVxK; split <;> exact ⟨_, rfl⟩)
    | (unfold execDrwVxVy checkData; split <;> (try split) <;> exact ⟨_, rfl⟩)
    | (simp only [execLdBVx, execDumpVx, execLoadVx]; unfold checkData; split <;> exact ⟨_, rfl⟩)

end Sys2Proof.Machine
end

