-- ==== Sys2Proof/Laws/PerInstr.lean ====
section
/-! SUPPORT. One lemma per instruction of the family named in LAWS.json. `TopDigit`: the encoding of every
instruction begins with the digit its row of the opcode map fixes (30_encoding.md rules R62, R64). -/

namespace Sys2Proof.Laws.TopDigit

/-- The digit OP of the instruction's row; an unrecognized word has its own. -/
def topDigit : Instr → Nibble
  | .cls | .ret => 0x0
  | .jpAddr _ => 0x1
  | .callAddr _ => 0x2
  | .seVxByte _ _ => 0x3
  | .sneVxByte _ _ => 0x4
  | .seVxVy _ _ => 0x5
  | .ldVxByte _ _ => 0x6
  | .addVxByte _ _ => 0x7
  | .ldVxVy _ _ | .orVxVy _ _ | .andVxVy _ _ | .xorVxVy _ _ | .addVxVy _ _ | .subVxVy _ _
  | .shrVxVy _ _ | .subnVxVy _ _ | .shlVxVy _ _ => 0x8
  | .sneVxVy _ _ => 0x9
  | .ldIAddr _ => 0xA
  | .jpV0Addr _ => 0xB
  | .rndVxByte _ _ => 0xC
  | .drwVxVy _ _ _ => 0xD
  | .skpVx _ | .sknpVx _ => 0xE
  | .ldVxDT _ | .ldVxK _ | .ldDTVx _ | .ldSTVx _ | .addIVx _ | .ldFVx _ | .ldBVx _ | .dumpVx _
  | .loadVx _ => 0xF
  | .unrecognized w => w.extractLsb' 12 4

def Statement (i : Instr) : Prop := fieldOp (encode i) = topDigit i

theorem cls : Statement (.cls) := by unfold Statement; decide
theorem ret : Statement (.ret) := by unfold Statement; decide
theorem jpAddr (nnn : Addr) : Statement (.jpAddr nnn) := by unfold Statement; simp [encode, topDigit]
theorem callAddr (nnn : Addr) : Statement (.callAddr nnn) := by unfold Statement; simp [encode, topDigit]
theorem seVxByte (x : Nibble) (nn : Byte) : Statement (.seVxByte x nn) := by unfold Statement; simp [encode, topDigit]
theorem sneVxByte (x : Nibble) (nn : Byte) : Statement (.sneVxByte x nn) := by unfold Statement; simp [encode, topDigit]
theorem seVxVy (x y : Nibble) : Statement (.seVxVy x y) := by unfold Statement; simp [encode, topDigit]
theorem ldVxByte (x : Nibble) (nn : Byte) : Statement (.ldVxByte x nn) := by unfold Statement; simp [encode, topDigit]
theorem addVxByte (x : Nibble) (nn : Byte) : Statement (.addVxByte x nn) := by unfold Statement; simp [encode, topDigit]
theorem ldVxVy (x y : Nibble) : Statement (.ldVxVy x y) := by unfold Statement; simp [encode, topDigit]
theorem orVxVy (x y : Nibble) : Statement (.orVxVy x y) := by unfold Statement; simp [encode, topDigit]
theorem andVxVy (x y : Nibble) : Statement (.andVxVy x y) := by unfold Statement; simp [encode, topDigit]
theorem xorVxVy (x y : Nibble) : Statement (.xorVxVy x y) := by unfold Statement; simp [encode, topDigit]
theorem addVxVy (x y : Nibble) : Statement (.addVxVy x y) := by unfold Statement; simp [encode, topDigit]
theorem subVxVy (x y : Nibble) : Statement (.subVxVy x y) := by unfold Statement; simp [encode, topDigit]
theorem shrVxVy (x y : Nibble) : Statement (.shrVxVy x y) := by unfold Statement; simp [encode, topDigit]
theorem subnVxVy (x y : Nibble) : Statement (.subnVxVy x y) := by unfold Statement; simp [encode, topDigit]
theorem shlVxVy (x y : Nibble) : Statement (.shlVxVy x y) := by unfold Statement; simp [encode, topDigit]
theorem sneVxVy (x y : Nibble) : Statement (.sneVxVy x y) := by unfold Statement; simp [encode, topDigit]
theorem ldIAddr (nnn : Addr) : Statement (.ldIAddr nnn) := by unfold Statement; simp [encode, topDigit]
theorem jpV0Addr (nnn : Addr) : Statement (.jpV0Addr nnn) := by unfold Statement; simp [encode, topDigit]
theorem rndVxByte (x : Nibble) (nn : Byte) : Statement (.rndVxByte x nn) := by unfold Statement; simp [encode, topDigit]
theorem drwVxVy (x y n : Nibble) : Statement (.drwVxVy x y n) := by unfold Statement; simp [encode, topDigit]
theorem skpVx (x : Nibble) : Statement (.skpVx x) := by unfold Statement; simp [encode, topDigit]
theorem sknpVx (x : Nibble) : Statement (.sknpVx x) := by unfold Statement; simp [encode, topDigit]
theorem ldVxDT (x : Nibble) : Statement (.ldVxDT x) := by unfold Statement; simp [encode, topDigit]
theorem ldVxK (x : Nibble) : Statement (.ldVxK x) := by unfold Statement; simp [encode, topDigit]
theorem ldDTVx (x : Nibble) : Statement (.ldDTVx x) := by unfold Statement; simp [encode, topDigit]
theorem ldSTVx (x : Nibble) : Statement (.ldSTVx x) := by unfold Statement; simp [encode, topDigit]
theorem addIVx (x : Nibble) : Statement (.addIVx x) := by unfold Statement; simp [encode, topDigit]
theorem ldFVx (x : Nibble) : Statement (.ldFVx x) := by unfold Statement; simp [encode, topDigit]
theorem ldBVx (x : Nibble) : Statement (.ldBVx x) := by unfold Statement; simp [encode, topDigit]
theorem dumpVx (x : Nibble) : Statement (.dumpVx x) := by unfold Statement; simp [encode, topDigit]
theorem loadVx (x : Nibble) : Statement (.loadVx x) := by unfold Statement; simp [encode, topDigit]
theorem unrecognized (w : Word) : Statement (.unrecognized w) := rfl

end Sys2Proof.Laws.TopDigit
end

