-- ==== Sys2Proof/Laws/Step.lean ====
section
/-! SUPPORT. What one step can do, said once: every later proof about `step` splits into these cases. -/

namespace Sys2Proof.Machine

/-- With an event pending, the step delivers the oldest one. -/
theorem step_pending {s : State} {e : Event} {rest : List Event} (h : s.pending = e :: rest) :
    step s = deliver e { s with pending := rest } := by
  unfold step stepEvent; rw [h]

/-- With none pending, Running, and the batch not used up, the step is an instruction cycle. -/
theorem step_batch {s : State} (hp : s.pending = []) (hr : s.runState = .running)
    (hb : s.batch < s.cfg.cyclesPerTick) : step s = instrCycle none s := by
  unfold step stepEvent scheduled; rw [hp, hr]; exact if_pos hb

/-- With none pending, Running, and the batch used up, the step is a Tick. -/
theorem step_tick {s : State} (hp : s.pending = []) (hr : s.runState = .running)
    (hb : s.cfg.cyclesPerTick ≤ s.batch) : step s = .next (tick s) := by
  unfold step stepEvent scheduled; rw [hp, hr]; exact if_neg (by omega)

/-- With none pending and the machine in Fault, the step is stuck. -/
theorem step_stuck {s : State} (hp : s.pending = []) (hr : s.runState = .fault) :
    step s = .fault .machineStopped := by
  unfold step stepEvent scheduled; rw [hp, hr]

/-- An enabled InstrCycle or Tick. -/
theorem deliver_instrCycle {s : State} (r : Option Byte) (hr : s.runState = .running) :
    deliver (.instrCycle r) s = instrCycle r s := if_pos hr
theorem deliver_tick {s : State} (hr : s.runState = .running) :
    deliver .tick s = .next (tick s) := if_pos hr

theorem deliver_reset {cfg : Config} (rom : List Byte) (s : State) (h : cfg.wf = true) :
    deliver (.reset cfg rom) s = .next (resetWith cfg rom s) := if_pos h

/-- In Fault an InstrCycle or a Tick does not happen. -/
theorem deliver_instrCycle_fault {s : State} (r : Option Byte) (hr : s.runState = .fault) :
    deliver (.instrCycle r) s = .next s := if_neg (by simp [hr])
theorem deliver_tick_fault {s : State} (hr : s.runState = .fault) :
    deliver .tick s = .next s := if_neg (by simp [hr])

/-- A cycle whose fetch is in bounds runs the fetched word. -/
theorem instrCycle_fetch {s : State} {w : Word} (r : Option Byte)
    (h : Memory.fetch16 s.mem s.pc = some w) :
    instrCycle r s = exec (decodeWord w) (s.beginCycle r).advancePc := by
  unfold instrCycle fetchExecute
  rw [State.beginCycle_mem, State.beginCycle_pc, h]

/-- A cycle whose fetch is out of bounds raises FetchOutOfBounds. -/
theorem instrCycle_out {s : State} (r : Option Byte) (h : Memory.fetch16 s.mem s.pc = none) :
    instrCycle r s = .next ((s.beginCycle r).faulted .fetchOutOfBounds) := by
  unfold instrCycle fetchExecute
  rw [State.beginCycle_mem, State.beginCycle_pc, h]; rfl

/-- What an instruction cycle that answers next can have done. -/
theorem instrCycle_next {r : Option Byte} {s t : State} (h : instrCycle r s = .next t) :
    (∃ w, Memory.fetch16 s.mem s.pc = some w ∧
      exec (decodeWord w) (s.beginCycle r).advancePc = .next t) ∨
    (Memory.fetch16 s.mem s.pc = none ∧ t = (s.beginCycle r).faulted .fetchOutOfBounds) := by
  unfold instrCycle fetchExecute at h
  simp only [State.beginCycle_mem, State.beginCycle_pc] at h
  split at h
  · exact .inl ⟨_, ‹_›, h⟩
  · exact .inr ⟨‹_›, raise_next h⟩

/-- What a delivered event that answers next can have done. -/
theorem deliver_next {e : Event} {s t : State} (h : deliver e s = .next t) :
    (∃ r, e = .instrCycle r ∧ s.runState = .running ∧ instrCycle r s = .next t) ∨
    (e = .tick ∧ s.runState = .running ∧ t = tick s) ∨
    (∃ k b, e = .keyWrite k b ∧ t = keyWrite k b s) ∨
    (e = .redrawAck ∧ t = redrawAck s) ∨
    (∃ cfg rom, e = .reset cfg rom ∧ cfg.wf = true ∧ t = resetWith cfg rom s) ∨
    (((∃ r, e = .instrCycle r) ∨ e = .tick) ∧ s.runState = .fault ∧ t = s) := by
  have notRunning (h : ¬ s.runState = .running) : s.runState = .fault := by
    cases hr : s.runState <;> simp_all
  cases e with
  | instrCycle r =>
    simp only [deliver] at h
    split at h
    · exact .inl ⟨r, rfl, ‹_›, h⟩
    · injection h with h
      exact .inr (.inr (.inr (.inr (.inr ⟨.inl ⟨r, rfl⟩, notRunning ‹_›, h.symm⟩))))
  | tick =>
    simp only [deliver] at h
    split at h <;> injection h with h
    · exact .inr (.inl ⟨rfl, ‹_›, h.symm⟩)
    · exact .inr (.inr (.inr (.inr (.inr ⟨.inr rfl, notRunning ‹_›, h.symm⟩))))
  | keyWrite k b =>
    injection h with h
    exact .inr (.inr (.inl ⟨k, b, rfl, h.symm⟩))
  | redrawAck =>
    injection h with h
    exact .inr (.inr (.inr (.inl ⟨rfl, h.symm⟩)))
  | reset cfg rom =>
    simp only [deliver] at h
    split at h
    · injection h with h
      exact .inr (.inr (.inr (.inr (.inl ⟨cfg, rom, rfl, ‹_›, h.symm⟩))))
    · cases h

/-- What a step that answers next can have done: the oldest pending event delivered, or, with none
pending and the machine Running, an instruction cycle of the batch or the Tick that ends it. -/
theorem step_next {s t : State} (h : step s = .next t) :
    (∃ e rest, s.pending = e :: rest ∧ deliver e { s with pending := rest } = .next t) ∨
    (s.pending = [] ∧ s.runState = .running ∧ s.batch < s.cfg.cyclesPerTick ∧
      instrCycle none s = .next t) ∨
    (s.pending = [] ∧ s.runState = .running ∧ s.cfg.cyclesPerTick ≤ s.batch ∧ t = tick s) := by
  unfold step stepEvent at h
  split at h
  · exact .inl ⟨_, _, ‹_›, h⟩
  · unfold scheduled at h
    split at h
    · split at h
      · exact .inr (.inl ⟨‹_›, ‹_›, ‹_›, h⟩)
      · injection h with h
        exact .inr (.inr ⟨‹_›, ‹_›, by omega, h.symm⟩)
    · cases h

end Sys2Proof.Machine
end

