-- ==== Sys2Proof/Tests/Slice0.lean ====
section
/-! SUPPORT. The model's own tests: the WellFormed smoke test, every constructor's decoding, at most two
one-step tests per instruction, and a witness for the hypotheses of every statement. The expected values
are those of spec/95_test_vectors.md (the row is named at each test) and of the examples in the rules. -/

namespace Sys2Proof.Tests

open Sys2Proof Sys2Proof.Machine

/-! ### Helpers -/

/-- The state a step answers, if it answers one. -/
def after (r : Result) : Option State :=
  match r with
  | .next t => some t
  | _ => none

/-- One step with the word placed at pc. -/
def run (w : Nat) (s : State) : Option State := after (step (s.withFetchWord 16 w))

/-- The reset state with a switch setting. -/
def withCfg (c : Config) : State := { State.reset with cfg := c }

def noVfReset : Config := { bootConfig with qVfReset := false }
def shiftVx : Config := { bootConfig with qShiftVy := false }
def jumpVx : Config := { bootConfig with qJumpVx := true }
def noMemIncr : Config := { bootConfig with qMemIncr := false }
def wrapping : Config := { bootConfig with qClip := false }

/-- Two registers set. -/
def regs2 (s : State) (x : Nibble) (a : Byte) (y : Nibble) (b : Byte) : State := (s.setReg x a).setReg y b

/-- The state with bytes stored from 0x300 on, and I there. -/
def data (s : State) (bs : List Byte) : State :=
  { s with mem := Memory.writeBytes s.mem 0x300 bs, i := 0x300 }

/-! ### WellFormed (rules R65, R66) -/

theorem test_wf_refuses_a_row_as_unrecognized :
    (Instr.unrecognized 0x1234).wf = false ∧ (Instr.unrecognized 0x00E0).wf = false ∧
    (Instr.unrecognized 0xF065).wf = false := by decide

theorem test_wf_accepts :
    (Instr.unrecognized 0x0000).wf = true ∧ (Instr.unrecognized 0x5121).wf = true ∧
    (Instr.jpAddr 0xFFF).wf = true := by decide

/-! ### Decoding: one word per constructor, bit by bit from rule R65's patterns -/

theorem test_decode_fixed :
    decodeWord 0b0000000011100000 = .cls ∧ decodeWord 0b0000000011101110 = .ret := by decide

theorem test_decode_nnn :
    decodeWord 0b0001_101010111100 = .jpAddr 0xABC ∧
    decodeWord 0b0010_001100000000 = .callAddr 0x300 ∧
    decodeWord 0b1010_000100100011 = .ldIAddr 0x123 ∧
    decodeWord 0b1011_111111111111 = .jpV0Addr 0xFFF := by decide

theorem test_decode_xnn :
    decodeWord 0b0011_1010_01000010 = .seVxByte 0xA 0x42 ∧
    decodeWord 0b0100_1010_01000010 = .sneVxByte 0xA 0x42 ∧
    decodeWord 0b0110_1010_11111111 = .ldVxByte 0xA 0xFF ∧
    decodeWord 0b0111_1111_00000001 = .addVxByte 0xF 0x01 ∧
    decodeWord 0b1100_0000_00001111 = .rndVxByte 0x0 0x0F := by decide

theorem test_decode_xy :
    decodeWord 0b0101_0001_0010_0000 = .seVxVy 0x1 0x2 ∧
    decodeWord 0b1001_0001_0010_0000 = .sneVxVy 0x1 0x2 ∧
    decodeWord 0b1000_0001_0010_0000 = .ldVxVy 0x1 0x2 ∧
    decodeWord 0b1000_0001_0010_0001 = .orVxVy 0x1 0x2 ∧
    decodeWord 0b1000_0001_0010_0010 = .andVxVy 0x1 0x2 ∧
    decodeWord 0b1000_0001_0010_0011 = .xorVxVy 0x1 0x2 ∧
    decodeWord 0b1000_0000_0001_0100 = .addVxVy 0x0 0x1 ∧
    decodeWord 0b1000_1111_0001_0101 = .subVxVy 0xF 0x1 ∧
    decodeWord 0b1000_0001_0010_0110 = .shrVxVy 0x1 0x2 ∧
    decodeWord 0b1000_0001_0010_0111 = .subnVxVy 0x1 0x2 ∧
    decodeWord 0b1000_0001_0010_1110 = .shlVxVy 0x1 0x2 := by decide

theorem test_decode_draw :
    decodeWord 0b1101_0001_0010_0101 = .drwVxVy 0x1 0x2 0x5 ∧
    decodeWord 0b1101_0000_0000_0000 = .drwVxVy 0x0 0x0 0x0 := by decide

theorem test_decode_x :
    decodeWord 0b1110_0000_10011110 = .skpVx 0x0 ∧
    decodeWord 0b1110_0011_10100001 = .sknpVx 0x3 ∧
    decodeWord 0b1111_0001_00000111 = .ldVxDT 0x1 ∧
    decodeWord 0b1111_0011_00001010 = .ldVxK 0x3 ∧
    decodeWord 0b1111_0000_00010101 = .ldDTVx 0x0 ∧
    decodeWord 0b1111_0010_00011000 = .ldSTVx 0x2 ∧
    decodeWord 0b1111_0001_00011110 = .addIVx 0x1 ∧
    decodeWord 0b1111_0001_00101001 = .ldFVx 0x1 ∧
    decodeWord 0b1111_0001_00110011 = .ldBVx 0x1 ∧
    decodeWord 0b1111_0010_01010101 = .dumpVx 0x2 ∧
    decodeWord 0b1111_1111_01100101 = .loadVx 0xF := by decide

/-- T40 rows 2 to 8: words that select no row. -/
theorem test_decode_unrecognized :
    decodeWord 0x0000 = .unrecognized 0x0000 ∧
    decodeWord 0x0123 = .unrecognized 0x0123 ∧
    decodeWord 0x00E1 = .unrecognized 0x00E1 ∧
    decodeWord 0x8AB8 = .unrecognized 0x8AB8 ∧
    decodeWord 0x8ABF = .unrecognized 0x8ABF ∧
    decodeWord 0x5AB1 = .unrecognized 0x5AB1 ∧
    decodeWord 0x9ABF = .unrecognized 0x9ABF ∧
    decodeWord 0xE19F = .unrecognized 0xE19F ∧
    decodeWord 0xE000 = .unrecognized 0xE000 ∧
    decodeWord 0xF100 = .unrecognized 0xF100 ∧
    decodeWord 0xF175 = .unrecognized 0xF175 := by
  refine ⟨?_, ?_, ?_, ?_, ?_, ?_, ?_, ?_, ?_, ?_, ?_⟩ <;> decide

/-- R43, R60: the byte at the lower address is the high byte; one byte is no instruction. -/
theorem test_decode_bytes :
    decodeBytes [0x60, 0x05, 0xAA] = .ok (.ldVxByte 0x0 0x05, [0xAA]) ∧
    decodeBytes [0x60] = .error .truncated ∧ encodeBytes (.drwVxVy 0x1 0x2 0x5) = [0xD1, 0x25] := by
  decide

/-- The table numbers a word as it stands: 16 bits, bit 0 the lowest. -/
theorem test_decode_table_word :
    decodeTableWord 16 0xD125 = some (.drwVxVy 0x1 0x2 0x5) ∧
    decodeTableWord 16 0x0000 = some (.unrecognized 0x0000) := by decide

/-! ### Reset (R220 to R223) -/

theorem test_reset_memory_is_canonical : Memory.wf State.reset.mem = true := by decide

/-- T70 row 2 and R42: the reset event with the same configuration and an empty ROM. -/
theorem test_reset_event_gives_reset : resetWith bootConfig [] State.reset = State.reset := by decide

theorem test_reset_memory :
    Memory.readBytes State.reset.mem 0 5 = [0xF0, 0x90, 0x90, 0x90, 0xF0] ∧
    Memory.readBytes State.reset.mem 75 6 = [0xF0, 0x80, 0xF0, 0x80, 0x80, 0x00] ∧
    Memory.read State.reset.mem 0x200 = 0 := by decide

/-- T70 rows 1 and 3 in small: the ROM's bytes lie at 0x200. -/
theorem test_reset_places_rom :
    Memory.readBytes (resetWith bootConfig [0x60, 0x05] State.reset).mem 0x1FF 4 = [0x00, 0x60, 0x05, 0x00] := by
  decide

/-! ### Flow and skip (T40, T41) -/

theorem test_unrecognized : (run 0x0123 State.reset).map (·.pc) = some 0x202 := by decide

/-- T40 rows 9 and 10. -/
theorem test_fetch_at_the_end :
    (run 0x6000 { State.reset with pc := 0xFFE }).map (·.pc) = some 0x1000 ∧
    (run 0x6000 { State.reset with pc := 0xFFF }).map (fun t => (t.pc, t.faultCause.code)) = some (0xFFF, 3) := by
  decide

theorem test_jp : (run 0x1ABC State.reset).map (·.pc) = some 0xABC := by decide

theorem test_call :
    (run 0x2300 State.reset).map (fun t => (t.stack[0], t.sp.val, t.pc)) = some (0x202, 1, 0x300) := by decide

theorem test_call_full :
    (run 0x2300 { State.reset with sp := 12 }).map (fun t => (t.faultCause.code, t.sp.val, t.pc)) =
      some (1, 12, 0x202) := by decide

theorem test_ret :
    (run 0x00EE { State.reset with sp := 1, stack := State.reset.stack.set 0 0xABC }).map
      (fun t => (t.pc, t.sp.val)) = some (0xABC, 0) := by decide

theorem test_ret_empty :
    (run 0x00EE State.reset).map (fun t => (t.faultCause.code, t.pc, t.sp.val)) = some (2, 0x202, 0) := by
  decide

theorem test_se_byte :
    (run 0x3A42 (State.reset.setReg 0xA 0x42)).map (·.pc) = some 0x204 ∧
    (run 0x3A42 (State.reset.setReg 0xA 0x43)).map (·.pc) = some 0x202 := by decide

theorem test_sne_byte :
    (run 0x4A42 (State.reset.setReg 0xA 0x42)).map (·.pc) = some 0x202 ∧
    (run 0x4A42 (State.reset.setReg 0xA 0x43)).map (·.pc) = some 0x204 := by decide

theorem test_se_reg :
    (run 0x5120 (regs2 State.reset 1 7 2 7)).map (·.pc) = some 0x204 ∧
    (run 0x5120 (regs2 State.reset 1 7 2 8)).map (·.pc) = some 0x202 := by decide

theorem test_sne_reg :
    (run 0x9120 (regs2 State.reset 1 7 2 8)).map (·.pc) = some 0x204 ∧
    (run 0x9120 (regs2 State.reset 1 7 2 7)).map (·.pc) = some 0x202 := by decide

/-- T41 rows 17 and 18. -/
theorem test_jp_v0 :
    (run 0xB300 (regs2 State.reset 0 0x10 3 0x20)).map (·.pc) = some 0x310 ∧
    (run 0xB300 (regs2 (withCfg jumpVx) 0 0x10 3 0x20)).map (·.pc) = some 0x320 := by decide

/-- T41 row 19. -/
theorem test_jp_v0_not_masked :
    (run 0xBFFF (State.reset.setReg 0 0xFF)).map (·.pc) = some 0x10FE := by decide

/-! ### Load and ALU (T42) -/

theorem test_ld_byte : (run 0x6AFF State.reset).map (·.reg 0xA) = some 0xFF := by decide

/-- T42 rows 2 and 3. -/
theorem test_add_byte :
    (run 0x7A01 (State.reset.setReg 0xA 0xFF)).map (fun t => (t.reg 0xA, t.reg 0xF)) = some (0x00, 0) ∧
    (run 0x7F01 (State.reset.setReg 0xF 0xFF)).map (·.reg 0xF) = some 0x00 := by decide

theorem test_ld_reg : (run 0x8120 (regs2 State.reset 1 1 2 2)).map (·.reg 1) = some 2 := by decide

/-- T42 rows 5 and 6. -/
theorem test_or :
    (run 0x8121 ((regs2 (withCfg noVfReset) 1 0x0F 2 0xF0).setReg 0xF 1)).map (fun t => (t.reg 1, t.reg 0xF)) =
      some (0xFF, 1) ∧
    (run 0x8121 ((regs2 State.reset 1 0x0F 2 0xF0).setReg 0xF 1)).map (fun t => (t.reg 1, t.reg 0xF)) =
      some (0xFF, 0) := by decide

theorem test_or_into_vf : (run 0x8F21 (regs2 State.reset 0xF 0x0F 2 0xF0)).map (·.reg 0xF) = some 0 := by decide

theorem test_and :
    (run 0x8122 ((regs2 (withCfg noVfReset) 1 0x3C 2 0x0F).setReg 0xF 1)).map (fun t => (t.reg 1, t.reg 0xF)) =
      some (0x0C, 1) := by decide

theorem test_xor :
    (run 0x8123 ((regs2 State.reset 1 0x3C 2 0x0F).setReg 0xF 1)).map (fun t => (t.reg 1, t.reg 0xF)) =
      some (0x33, 0) := by decide

/-- T42 rows 13 and 14. -/
theorem test_add :
    (run 0x8124 (regs2 State.reset 1 200 2 100)).map (fun t => (t.reg 1, t.reg 0xF)) = some (44, 1) ∧
    (run 0x8124 (regs2 State.reset 1 0x80 2 0x7F)).map (fun t => (t.reg 1, t.reg 0xF)) = some (0xFF, 0) := by
  decide

/-- T42 rows 16 and 17. -/
theorem test_add_vf :
    (run 0x8F14 (regs2 State.reset 0xF 0xFF 1 2)).map (·.reg 0xF) = some 1 ∧
    (run 0x81F4 (regs2 State.reset 0xF 1 1 0xFF)).map (fun t => (t.reg 1, t.reg 0xF)) = some (0, 1) := by decide

/-- T42 rows 18 and 19. -/
theorem test_sub :
    (run 0x8125 (regs2 State.reset 1 5 2 5)).map (fun t => (t.reg 1, t.reg 0xF)) = some (0, 1) ∧
    (run 0x8125 (regs2 State.reset 1 3 2 5)).map (fun t => (t.reg 1, t.reg 0xF)) = some (0xFE, 0) := by decide

/-- T42 row 22. -/
theorem test_sub_from_vf :
    (run 0x81F5 (regs2 State.reset 1 5 0xF 7)).map (fun t => (t.reg 1, t.reg 0xF)) = some (0xFE, 0) := by decide

/-- T42 rows 24 and 25. -/
theorem test_subn :
    (run 0x8127 (regs2 State.reset 1 3 2 5)).map (fun t => (t.reg 1, t.reg 0xF)) = some (2, 1) ∧
    (run 0x8127 (regs2 State.reset 1 5 2 3)).map (fun t => (t.reg 1, t.reg 0xF)) = some (0xFE, 0) := by decide

/-- T42 rows 26 and 27. -/
theorem test_shr :
    (run 0x8126 (regs2 (withCfg shiftVx) 1 0x05 2 0x82)).map (fun t => (t.reg 1, t.reg 0xF, t.reg 2)) =
      some (0x02, 1, 0x82) ∧
    (run 0x8126 (regs2 State.reset 1 0x05 2 0x82)).map (fun t => (t.reg 1, t.reg 0xF, t.reg 2)) =
      some (0x41, 0, 0x82) := by decide

/-- T42 rows 28 and 29. -/
theorem test_shl :
    (run 0x812E (regs2 (withCfg shiftVx) 1 0x81 2 0x42)).map (fun t => (t.reg 1, t.reg 0xF)) =
      some (0x02, 1) ∧
    (run 0x812E (regs2 State.reset 1 0x81 2 0x42)).map (fun t => (t.reg 1, t.reg 0xF)) =
      some (0x84, 0) := by decide

/-! ### Index and memory (T43) -/

theorem test_ld_i : (run 0xA123 State.reset).map (·.i) = some 0x123 := by decide

/-- T43 rows 3 and 4. -/
theorem test_add_i :
    (run 0xF11E { State.reset.setReg 1 1 with i := 0x0FFF }).map (·.i) = some 0x1000 ∧
    (run 0xF11E { State.reset.setReg 1 1 with i := 0xFFFF }).map (·.i) = some 0 := by decide

/-- T43 rows 5 and 6. -/
theorem test_ld_f :
    (run 0xF129 (State.reset.setReg 1 0x0A)).map (·.i) = some 0x32 ∧
    (run 0xF129 (State.reset.setReg 1 0xFF)).map (·.i) = some 0x4FB := by decide

/-- T43 row 11. -/
theorem test_bcd :
    (run 0xF133 { State.reset.setReg 1 255 with i := 0xFFD }).map
      (fun t => (Memory.readBytes t.mem 0xFFC 4, t.i)) = some ([0, 2, 5, 5], 0xFFD) := by decide

/-- T43 row 12. -/
theorem test_bcd_fault :
    (run 0xF133 { State.reset.setReg 1 255 with i := 0xFFE }).map
      (fun t => (t.faultCause.code, Memory.readBytes t.mem 0xFFE 2, t.pc)) = some (4, [0, 0], 0x202) := by decide

/-- T43 rows 13 and 14. -/
theorem test_dump :
    (run 0xF255 ((regs2 (data State.reset []) 0 0x11 1 0x22).setReg 2 0x33)).map
      (fun t => (Memory.readBytes t.mem 0x300 4, t.i)) = some ([0x11, 0x22, 0x33, 0x00], 0x303) ∧
    (run 0xF255 (regs2 (data (withCfg noMemIncr) []) 0 0x11 3 0x44)).map
      (fun t => (Memory.readBytes t.mem 0x300 4, t.i)) = some ([0x11, 0, 0, 0], 0x300) := by decide

/-- T43 row 18. -/
theorem test_dump_fault :
    (run 0xFF55 { State.reset.setReg 0 1 with i := 0xFF1 }).map
      (fun t => (t.faultCause.code, Memory.readBytes t.mem 0xFF1 2)) = some (4, [0, 0]) := by decide

/-- T43 rows 15 and 16. -/
theorem test_load :
    (run 0xF265 (data State.reset [0xAA, 0xBB, 0xCC, 0xDD])).map
      (fun t => (t.reg 0, t.reg 1, t.reg 2, t.reg 3, t.i)) = some (0xAA, 0xBB, 0xCC, 0, 0x303) ∧
    (run 0xF265 (data (withCfg noMemIncr) [0xAA, 0xBB, 0xCC, 0xDD])).map
      (fun t => (t.reg 2, t.reg 3, t.i)) = some (0xCC, 0, 0x300) := by decide

/-- T43 row 20. -/
theorem test_load_fault :
    (run 0xF065 { State.reset with i := 0x1000 }).map (fun t => (t.faultCause.code, t.reg 0)) =
      some (4, 0) := by decide

/-! ### Display (T44); a cell (x, y) is the index y * 64 + x -/

/-- T44 row 19: (1, 1) and (63, 31). -/
theorem test_cls :
    (run 0x00E0 { State.reset.setReg 0xF 1 with px := [65, 2047] }).map
      (fun t => (t.px, t.redraw, t.reg 0xF)) = some ([], true, 1) := by decide

/-- T44 rows 6 and 7. -/
theorem test_draw_at_the_edge :
    (run 0xD012 (data (regs2 State.reset 0 62 1 31) [0xFF, 0xF0])).map (fun t => (t.px, t.reg 0xF)) =
      some ([31 * 64 + 62, 31 * 64 + 63], 0) ∧
    (run 0xD012 (data (regs2 (withCfg wrapping) 0 62 1 31) [0xFF, 0xF0])).map (fun t => (t.px, t.reg 0xF)) =
      some ([0, 1, 62, 63, 31 * 64, 31 * 64 + 1, 31 * 64 + 2, 31 * 64 + 3, 31 * 64 + 4, 31 * 64 + 5,
        31 * 64 + 62, 31 * 64 + 63], 0) := by decide

/-- T44 rows 11 and 3. -/
theorem test_draw_collision :
    (run 0xD011 { data State.reset [0xA0] with px := [0, 1] }).map (fun t => (t.px, t.reg 0xF, t.redraw)) =
      some ([1, 2], 1, true) ∧
    (run 0xD000 { State.reset.setReg 0xF 1 with px := [325] }).map (fun t => (t.px, t.reg 0xF, t.redraw)) =
      some ([325], 0, true) := by decide

/-! ### Keypad, timers, random (T45) -/

/-- The latch with one key down. -/
def down (k : Nibble) (s : State) : State := keyWrite k true s

/-- T45 rows 1, 2 and 4. -/
theorem test_skp :
    (run 0xE09E (down 5 (State.reset.setReg 0 5))).map (·.pc) = some 0x204 ∧
    (run 0xE09E (State.reset.setReg 0 5)).map (·.pc) = some 0x202 ∧
    (run 0xE09E (State.reset.setReg 0 16)).map (fun t => (t.faultCause.code, t.pc)) = some (5, 0x202) := by
  decide

/-- T45 rows 5, 6 and 7. -/
theorem test_sknp :
    (run 0xE0A1 (down 5 (State.reset.setReg 0 5))).map (·.pc) = some 0x202 ∧
    (run 0xE0A1 (State.reset.setReg 0 5)).map (·.pc) = some 0x204 ∧
    (run 0xE0A1 (State.reset.setReg 0 0xFF)).map (fun t => (t.faultCause.code, t.pc)) = some (5, 0x202) := by
  decide

theorem test_ld_dt : (run 0xF107 { State.reset with dt := 0x3C }).map (·.reg 1) = some 0x3C := by decide

theorem test_set_dt : (run 0xF015 (State.reset.setReg 0 60)).map (·.dt) = some 60 := by decide

theorem test_set_st :
    (run 0xF218 (State.reset.setReg 2 2)).map (fun t => (t.st, t.tone)) = some (2, true) := by decide

/-- T45 rows 11 and 13, `rnd` = 0xA7. -/
theorem test_rnd :
    (after (exec (.rndVxByte 0x0 0x0F) { State.reset with rndIn := some 0xA7 })).map (·.reg 0) = some 0x07 ∧
    (after (exec (.rndVxByte 0x0 0x00) { State.reset with rndIn := some 0xA7 })).map (·.reg 0) = some 0 := by
  decide

/-- T45 row 14, S6: the least of two keys. -/
theorem test_key_wait_press :
    (run 0xF30A (down 9 (down 4 State.reset))).map (fun t => (t.kwState, t.kwKey, t.pc, t.reg 3)) =
      some (.awaitingRelease, 4, 0x200, 0) ∧
    (run 0xF30A State.reset).map (fun t => (t.kwState, t.pc)) = some (.awaitingPress, 0x200) := by decide

/-- T45 rows 14 and 15: the release of the remembered key, another still down. -/
theorem test_key_wait_release :
    (run 0xF30A { down 9 State.reset with kwState := .awaitingRelease, kwKey := 4 }).map
      (fun t => (t.kwState, t.pc, t.reg 3)) = some (.idle, 0x202, 4) ∧
    (run 0xF30A { down 4 State.reset with kwState := .awaitingRelease, kwKey := 4 }).map
      (fun t => (t.kwState, t.pc, t.reg 3)) = some (.awaitingRelease, 0x200, 0) := by decide

/-! ### Events (T60) -/

theorem test_tick :
    (tick { State.reset with dt := 2, st := 1 }).dt = 1 ∧ (tick { State.reset with dt := 2, st := 1 }).st = 0 ∧
    (tick State.reset).dt = 0 ∧ (tick { State.reset with dt := 255 }).dt = 254 := by decide

/-- T60 rows 8 and 9. -/
theorem test_batch_size :
    Config.cyclesPerTick { bootConfig with ips := 700 } = 11 ∧
    Config.cyclesPerTick { bootConfig with ips := 59 } = 0 := by decide

/-! ### Witnesses: for each statement with hypotheses, states and operands that meet them together -/

/-- The reset state with events pending. -/
def due (es : List Event) : State := { State.reset with pending := es }

/-- The reset state in Fault. -/
def failed (es : List Event) : State := { due es with runState := .fault, faultCause := .stackUnderflow }

/-- The reset state with IPS changed. -/
def atIps (n : Nat) : State := withCfg { bootConfig with ips := n }

/-- State.reset meets the invariant, also with I, registers, a pixel or a configuration of its own. -/
theorem inv_of_reset (s : State) (h : s.mem = [] ∧ s.stack = Vector.replicate 16 0 ∧ s.sp = 0 ∧
    s.pc = 0x200 ∧ s.kwState = .idle ∧ s.runState = .running ∧ s.faultCause = .none)
    (hp : pxWfFrom 0 (s.cfg.displayW * s.cfg.displayH) s.px = true) (hc : s.cfg.wf = true) : s.Inv := by
  obtain ⟨h1, h2, h3, h4, h5, h6, h7⟩ := h
  refine ⟨by rw [h1]; rfl, hp, hc, by rw [h3]; exact Nat.zero_le _, fun j _ => ?_, fun j => ?_,
    by rw [h4]; decide, by simp [h6, h7], fun h => absurd h5 h⟩
  · simp [h2]
  · simp [h2]

theorem witness_DecodeInvertsEncode :
    (Instr.drwVxVy 0xF 0xF 0xF).wf = true ∧ (Instr.unrecognized 0xF0FF).wf = true := by decide

/-- One word for each mask and match of DecodeFollowsOpcodeMap, fields at their largest or smallest. -/
theorem witness_DecodeFollowsOpcodeMap :
    ((0x1FFF : Word) &&& 0xF000 = 0x1000 ∧ (0x2000 : Word) &&& 0xF000 = 0x2000 ∧
    (0x3FFF : Word) &&& 0xF000 = 0x3000 ∧ (0x4000 : Word) &&& 0xF000 = 0x4000 ∧
    (0x5FF0 : Word) &&& 0xF00F = 0x5000 ∧ (0x6FFF : Word) &&& 0xF000 = 0x6000 ∧
    (0x7FFF : Word) &&& 0xF000 = 0x7000 ∧ (0x8FF0 : Word) &&& 0xF00F = 0x8000 ∧
    (0x8FF1 : Word) &&& 0xF00F = 0x8001 ∧ (0x8FF2 : Word) &&& 0xF00F = 0x8002 ∧
    (0x8FF3 : Word) &&& 0xF00F = 0x8003 ∧ (0x8FF4 : Word) &&& 0xF00F = 0x8004) ∧
    ((0x8FF5 : Word) &&& 0xF00F = 0x8005 ∧ (0x8FF6 : Word) &&& 0xF00F = 0x8006 ∧
    (0x8FF7 : Word) &&& 0xF00F = 0x8007 ∧ (0x8FFE : Word) &&& 0xF00F = 0x800E ∧
    (0x9FF0 : Word) &&& 0xF00F = 0x9000 ∧ (0xAFFF : Word) &&& 0xF000 = 0xA000 ∧
    (0xBFFF : Word) &&& 0xF000 = 0xB000 ∧ (0xCFFF : Word) &&& 0xF000 = 0xC000 ∧
    (0xDFFF : Word) &&& 0xF000 = 0xD000 ∧ (0xEF9E : Word) &&& 0xF0FF = 0xE09E ∧
    (0xEFA1 : Word) &&& 0xF0FF = 0xE0A1 ∧ (0xFF07 : Word) &&& 0xF0FF = 0xF007) ∧
    (0xFF0A : Word) &&& 0xF0FF = 0xF00A ∧ (0xFF15 : Word) &&& 0xF0FF = 0xF015 ∧
    (0xFF18 : Word) &&& 0xF0FF = 0xF018 ∧ (0xFF1E : Word) &&& 0xF0FF = 0xF01E ∧
    (0xFF29 : Word) &&& 0xF0FF = 0xF029 ∧ (0xFF33 : Word) &&& 0xF0FF = 0xF033 ∧
    (0xFF55 : Word) &&& 0xF0FF = 0xF055 ∧ (0xFF65 : Word) &&& 0xF0FF = 0xF065 ∧
    recognized 0xFFFF = false := by decide

theorem witness_UnrecognizedWordsAreListedNoOps :
    decodeWord 0x0FFF = .unrecognized 0x0FFF ∧ decodeWord 0x5FFF = .unrecognized 0x5FFF ∧
    decodeWord 0x8FF8 = .unrecognized 0x8FF8 ∧ decodeWord 0x9001 = .unrecognized 0x9001 ∧
    decodeWord 0xE09F = .unrecognized 0xE09F ∧ decodeWord 0xF000 = .unrecognized 0xF000 := by decide

theorem witness_FetchReadsBigEndianAndAdvances :
    (0xFFE : Word).toNat ≤ 4094 ∧ 4094 < (0xFFF : Word).toNat ∧ 4094 < (0x1000 : Word).toNat := by decide

theorem witness_StepRunsDecodedInstruction :
    State.reset.runState = .running ∧ State.reset.pc.toNat ≤ 4094 ∧
    decodeBytes [Memory.read State.reset.mem State.reset.pc.toNat,
      Memory.read State.reset.mem (State.reset.pc.toNat + 1)] = .ok (.unrecognized 0, []) ∧
    State.reset.pending = [] ∧ State.reset.batch < State.reset.cfg.ips / 60 ∧
    (due [.instrCycle (some 7)]).pending = .instrCycle (some 7) :: [] := by decide

theorem witness_PlacedWordRunsNext :
    State.reset.runState = .running ∧ State.reset.pc.toNat ≤ 4094 ∧ Memory.wf State.reset.mem = true ∧
    65535 < 65536 := by decide

/-- k = 0 and k = K with K = 1, and K = 0. -/
theorem witness_BatchRunsKCyclesThenTicks :
    (runSteps 0 (atIps 60) = .next (atIps 60) ∧ 0 < (atIps 60).cfg.ips / 60) ∧
    (∃ t, runSteps 1 (atIps 60) = .next t ∧ t.runState = .running ∧ 1 = (atIps 60).cfg.ips / 60) ∧
    (runSteps 0 (atIps 59) = .next (atIps 59) ∧ (atIps 59).cfg.ips < 60 ∧ (atIps 59).pending = [] ∧
      (atIps 59).batch = 0 ∧ (atIps 59).runState = .running) :=
  ⟨⟨rfl, by decide⟩, ⟨_, rfl, rfl, rfl⟩, rfl, by decide, rfl, rfl, rfl⟩

theorem witness_TickDecrementsBothTimers :
    (due [.tick]).runState = .running ∧ (due [.tick]).pending = .tick :: [] := by decide

theorem witness_KeyWriteSetsOneKey :
    (due [.keyWrite 0xF true]).pending = .keyWrite 0xF true :: [] ∧
    (failed [.keyWrite 0x0 false]).pending = .keyWrite 0x0 false :: [] := by decide

theorem witness_RedrawAckClearsRedraw :
    (due [.redrawAck]).pending = .redrawAck :: [] ∧
    (∃ t, exec .cls State.reset = .next t) ∧
    (∃ t, exec (.drwVxVy 0 0 0) State.reset = .next t ∧ State.reset.runState = .running ∧
      t.runState = .running) :=
  ⟨rfl, ⟨_, rfl⟩, ⟨_, rfl, rfl, rfl⟩⟩

/-- A ROM of 0 bytes, and for the other clause one of 3585. -/
theorem witness_ResetBuildsWholeState :
    (due [.reset bootConfig []]).pending = .reset bootConfig [] :: [] ∧ bootConfig.wf = true ∧
    ([] : List Byte).length ≤ 3584 ∧ ¬ (List.replicate 3585 (0xAB : Byte)).length ≤ 3584 :=
  ⟨rfl, by decide, by decide, by rw [List.length_replicate]; omega⟩

theorem witness_ResetRejectsOversizedRom :
    (due [.reset bootConfig (List.replicate 3585 0xAB)]).pending =
      .reset bootConfig (List.replicate 3585 0xAB) :: [] ∧
    bootConfig.wf = true ∧ 3584 < (List.replicate 3585 (0xAB : Byte)).length ∧
    (List.replicate 3584 (0xAB : Byte)).length ≤ 3584 :=
  ⟨rfl, by decide, by rw [List.length_replicate]; omega, by rw [List.length_replicate]⟩

theorem witness_FaultStateIsTerminal :
    (failed []).runState = .fault ∧ (failed []).pending = [] ∧
    (∃ t, step (failed [.redrawAck]) = .next t ∧
      ∀ cfg rom, (failed [.redrawAck]).pending.head? ≠ some (.reset cfg rom)) ∧
    (failed [.instrCycle none]).pending = .instrCycle none :: [] ∧
    (failed [.tick]).pending = .tick :: [] :=
  ⟨rfl, rfl, ⟨_, rfl, fun _ _ h => by cases h⟩, rfl, rfl⟩

theorem witness_FaultingInstructionWritesNothing :
    State.reset.runState = .running ∧
    ∃ t, exec .ret State.reset = .next t ∧ t.runState = .fault := ⟨rfl, _, rfl, rfl⟩

theorem witness_FaultsAreExactlyTheListedOnes :
    State.reset.runState = .running ∧ State.reset.faultCause = .none := by decide

theorem witness_StepKeepsInvariant : State.reset.Inv ∧ ∃ t, step State.reset = .next t :=
  ⟨inv_of_reset _ (by decide) (by decide) (by decide), _, rfl⟩

theorem witness_ConfigurationHeldUntilReset :
    (∃ t, step State.reset = .next t) ∧ ∀ cfg rom, State.reset.pending.head? ≠ some (.reset cfg rom) :=
  ⟨⟨_, rfl⟩, fun _ _ h => by cases h⟩

/-- One for each event, the Reset among them. -/
theorem witness_EventsWriteOnlyTheirState :
    (∃ t, step (due [.instrCycle none]) = .next t) ∧ (∃ t, step (due [.tick]) = .next t) ∧
    (∃ t, step (due [.keyWrite 5 true]) = .next t) ∧ (∃ t, step (due [.redrawAck]) = .next t) ∧
    (∃ t, step (due [.reset bootConfig []]) = .next t ∧
      (failed [.reset bootConfig []]).pending = (due [.reset bootConfig []]).pending ∧
      (failed [.reset bootConfig []]).draws = (due [.reset bootConfig []]).draws) :=
  ⟨⟨_, rfl⟩, ⟨_, rfl⟩, ⟨_, rfl⟩, ⟨_, rfl⟩, _, rfl, rfl, rfl⟩

/-- A store, a clear, a call, an index load, a jump and an empty return do change what the frame lets them. -/
theorem witness_InstructionsWriteOnlyTheirState :
    (∃ t, exec (.ldBVx 0) (State.reset.setReg 0 9) = .next t ∧ t.mem ≠ State.reset.mem) ∧
    (∃ t, exec .cls State.reset = .next t ∧ t.redraw ≠ State.reset.redraw) ∧
    (∃ t, exec (.callAddr 0x300) State.reset = .next t ∧ t.stack ≠ State.reset.stack ∧
      t.sp ≠ State.reset.sp) ∧
    (∃ t, exec (.ldIAddr 0x300) State.reset = .next t ∧ t.i ≠ State.reset.i) ∧
    (∃ t, exec (.jpAddr 0xFFF) State.reset = .next t ∧ t.pc ≠ State.reset.pc) ∧
    (∃ t, exec .ret State.reset = .next t ∧ t.runState ≠ State.reset.runState ∧
      t.faultCause ≠ State.reset.faultCause) :=
  ⟨⟨_, rfl, by decide⟩, ⟨_, rfl, by decide⟩, ⟨_, rfl, by decide, by decide⟩, ⟨_, rfl, by decide⟩,
    ⟨_, rfl, by decide⟩, _, rfl, by decide, by decide⟩

theorem witness_RegistersChangeOnlyAsDestination :
    ∃ t, exec (.ldVxByte 0xF 5) State.reset = .next t ∧ t.reg 0xF ≠ State.reset.reg 0xF :=
  ⟨_, rfl, by decide⟩

theorem witness_FlagWritesClobberVF :
    (∃ t, exec (.addVxVy 0xF 0) State.reset = .next t) ∧
    (∃ t, exec (.drwVxVy 0 0 0) State.reset = .next t ∧ State.reset.runState = .running ∧
      t.runState = .running) ∧
    (∃ t, exec (.orVxVy 0xF 0) State.reset = .next t ∧ State.reset.cfg.qVfReset = true) :=
  ⟨⟨_, rfl⟩, ⟨_, rfl, rfl, rfl⟩, _, rfl, rfl⟩

theorem witness_MemoryWriteSetsOneByte : Memory.wf [] = true ∧ 4095 ≤ 4095 := by decide

theorem witness_EqualReadsMeanEqualMemories :
    Memory.wf [(0xFFF, 1)] = true ∧
    ∀ a, a < 4096 → Memory.read [(0xFFF, 1)] a = Memory.read [(0xFFF, 1)] a := ⟨by decide, fun _ _ => rfl⟩

theorem witness_StoreIsSeenByTheNextFetch :
    let s : State := { State.reset with i := 0xFFE, pc := 0xFFE }
    s.runState = .running ∧ Memory.wf s.mem = true ∧ s.i = s.pc ∧ s.pc.toNat ≤ 4094 := by decide

theorem witness_ReturnPopsTheReturnAddress :
    State.reset.sp = 0 ∧ State.sp { State.reset with sp := 1 } = (0 : Nat) + 1 ∧
    State.sp { State.reset with sp := 16 } = (15 : Nat) + 1 := by decide

theorem witness_CallPushesTheAdvancedPc :
    (State.sp { State.reset with sp := 12 }).val = State.reset.cfg.stackCapacity.val ∧
    (State.sp { State.reset with sp := 11 }).val < State.reset.cfg.stackCapacity.val := by decide

theorem witness_UnrecognizedOpcodeOnlyAdvancesPc :
    Memory.fetch16 State.reset.mem State.reset.pc = some 0 ∧ recognized 0 = false := by decide

/-- Two calls on an empty stack, and one call that fills it. -/
theorem witness_NestedCallsReturn :
    State.reset.sp.val + ([0x204, 0x208] : List Addr).length ≤ State.reset.cfg.stackCapacity.val ∧
    (State.sp { State.reset with sp := 11 }).val + ([0x204] : List Addr).length =
      State.reset.cfg.stackCapacity.val := by decide

/-- With V0 = 0xF0 and V1 = 0x3C the bytes 0xFC, 0x30 and 0xCC are the OR, the AND and the XOR. -/
theorem witness_LogicalOperations :
    let s := regs2 State.reset 0 0xF0 1 0x3C
    (∀ j, j < 8 → (0xFC : Byte).getLsbD j = ((s.reg 0).getLsbD j || (s.reg 1).getLsbD j)) ∧
    (∀ j, j < 8 → (0x30 : Byte).getLsbD j = ((s.reg 0).getLsbD j && (s.reg 1).getLsbD j)) ∧
    (∀ j, j < 8 → (0xCC : Byte).getLsbD j = ((s.reg 0).getLsbD j ^^ (s.reg 1).getLsbD j)) := by decide

theorem witness_BcdStoresThreeDigits :
    Memory.wf State.reset.mem = true ∧ (0xFFD : Word).toNat ≤ 4093 ∧ 4093 < (0xFFE : Word).toNat := by decide

/-- For FX55, FX65 and the two together: the last range that fits and the first that does not. -/
theorem witness_DumpStoresRegisters_LoadFillsRegisters_DumpThenLoad :
    Memory.wf State.reset.mem = true ∧ (0xFF0 : Word).toNat + (0xF : Nibble).toNat ≤ 4095 ∧
    4095 < (0xFF1 : Word).toNat + (0xF : Nibble).toNat := by decide

/-- N = 0, the last range that fits, and the first that does not. -/
theorem witness_DrawXorsTheSprite :
    State.Inv { State.reset with i := 0xFF1, px := [3] } ∧ (0x0 : Nibble).toNat = 0 ∧
    (0xFF1 : Word).toNat + (0xF : Nibble).toNat - 1 ≤ 4095 ∧ 0 < (0xF : Nibble).toNat ∧
    4095 < (0xFF2 : Word).toNat + (0xF : Nibble).toNat - 1 :=
  ⟨inv_of_reset _ (by decide) (by decide) (by decide), by decide, by decide, by decide, by decide⟩

theorem witness_DrawingTwiceRestoresTheScreen :
    State.reset.Inv ∧ State.reset.runState = .running ∧ (0 : Nibble) ≠ 0xF ∧
    (∃ t u, exec (.drwVxVy 0 0 5) State.reset = .next t ∧ t.runState = .running ∧
      exec (.drwVxVy 0 0 5) t = .next u) ∧
    (5 : Nibble).toNat ≤ State.reset.cfg.displayH :=
  ⟨witness_StepKeepsInvariant.1, rfl, by decide, ⟨_, _, rfl, rfl, rfl⟩, by decide⟩

theorem witness_KeySkipsTestTheLatch :
    ((State.reset.setReg 0 15).reg 0).toNat ≤ 15 ∧ 15 < ((State.reset.setReg 0 16).reg 0).toNat := by decide

theorem witness_KeyWaitFollowsItsStates :
    State.reset.kwState ≠ .awaitingRelease ∧ (∀ k, State.reset.key k = false) ∧
    (down 0xF State.reset).key 0xF = true ∧
    (∀ j : Nibble, j.toNat < (0xF : Nibble).toNat → (down 0xF State.reset).key j = false) ∧
    State.kwState { down 4 State.reset with kwState := .awaitingRelease, kwKey := 4 } = .awaitingRelease ∧
    (down 4 State.reset).key 4 = true ∧ (down 4 State.reset).key 5 = false := by decide

/-- S6: an FX0A at 0x200 and the five events. -/
theorem witness_KeyWaitTakesAPressAndRelease :
    let s : State :=
      { due [.instrCycle none, .keyWrite 5 true, .instrCycle none, .keyWrite 5 false, .instrCycle none] with
        mem := [(0x200, 0xF3), (0x201, 0x0A)] }
    (s.runState = .running ∧ s.pc.toNat ≤ 4094) ∧ s.instrAtPc = .ldVxK 3 ∧ s.kwState = .idle ∧
    (∀ j, s.key j = false) ∧
    s.pending = .instrCycle none :: .keyWrite 5 true :: .instrCycle none :: .keyWrite 5 false ::
      .instrCycle none :: [] := by decide

theorem witness_RandomByteIsMasked :
    State.rndIn { State.reset with rndIn := some 0xA7 } = some 0xA7 ∧ State.reset.rndIn = none ∧
    (0x0F : Byte).getLsbD 7 = false ∧ (∃ t, exec (.rndVxByte 0 0x0F) State.reset = .next t) ∧
    (∃ t, exec .cls State.reset = .next t ∧ ∀ x nn, Instr.cls ≠ .rndVxByte x nn) :=
  ⟨rfl, rfl, by decide, ⟨_, rfl⟩, _, rfl, fun _ _ h => by cases h⟩

end Sys2Proof.Tests
end

/-! What no instruction writes (10_state.md rules R17, R23, R25): the frame of EXECUTE, lifted to a whole
InstrCycle, and from there what each event leaves alone. -/

namespace Sys2Proof.Machine

/-- The second state has the first one's keypad latch and configuration, and the same record of the
environment: the part of the state that no instruction writes. -/
structure State.SameSurroundings (s t : State) : Prop where
  keys : t.keys = s.keys
  cfg : t.cfg = s.cfg
  batch : t.batch = s.batch
  rndIn : t.rndIn = s.rndIn
  pending : t.pending = s.pending

theorem State.SameSurroundings.trans {s t u : State} (h : s.SameSurroundings t)
    (h' : t.SameSurroundings u) : s.SameSurroundings u :=
  ⟨h'.keys.trans h.keys, h'.cfg.trans h.cfg, h'.batch.trans h.batch, h'.rndIn.trans h.rndIn,
    h'.pending.trans h.pending⟩

/-- A result that, if it is a next state, has the surroundings of the state it came from. -/
def KeepsSurroundings (s : State) (r : Result) : Prop := ∀ t, r = .next t → s.SameSurroundings t

theorem keepsSurroundings_next {s u : State} (h : s.SameSurroundings u) :
    KeepsSurroundings s (.next u) := by
  intro t ht
  injection ht with ht
  exact ht ▸ h

theorem State.sameSurroundings_faulted (s : State) (c : FaultCause) :
    s.SameSurroundings (s.faulted c) := ⟨rfl, rfl, rfl, rfl, rfl⟩

theorem State.sameSurroundings_advancePc (s : State) : s.SameSurroundings s.advancePc :=
  ⟨rfl, rfl, rfl, rfl, rfl⟩

theorem State.sameSurroundings_setReg (s : State) (x : Nibble) (b : Byte) :
    s.SameSurroundings (s.setReg x b) := ⟨rfl, rfl, rfl, rfl, rfl⟩

theorem State.sameSurroundings_resetFlag (s : State) : s.SameSurroundings s.resetFlag :=
  ⟨s.resetFlag_keys, s.resetFlag_cfg, s.resetFlag_batch, s.resetFlag_rndIn, s.resetFlag_pending⟩

/-- A register write and then the VF reset of 8XY1 to 8XY3. -/
theorem State.sameSurroundings_setReg_resetFlag (s : State) (x : Nibble) (b : Byte) :
    s.SameSurroundings (s.setReg x b).resetFlag :=
  (s.sameSurroundings_setReg x b).trans (s.setReg x b).sameSurroundings_resetFlag

theorem State.sameSurroundings_awaitPress (s : State) : s.SameSurroundings s.awaitPress :=
  ⟨s.awaitPress_keys, s.awaitPress_cfg, s.awaitPress_batch, s.awaitPress_rndIn, s.awaitPress_pending⟩

theorem State.sameSurroundings_awaitRelease (s : State) (x : Nibble) :
    s.SameSurroundings (s.awaitRelease x) :=
  ⟨s.awaitRelease_keys x, s.awaitRelease_cfg x, s.awaitRelease_batch x, s.awaitRelease_rndIn x,
    s.awaitRelease_pending x⟩

theorem skipIf_keepsSurroundings (c : Bool) (s : State) : KeepsSurroundings s (skipIf c s) := by
  rw [skipIf_eq]
  exact keepsSurroundings_next ⟨rfl, rfl, rfl, rfl, rfl⟩

theorem skipIfKey_keepsSurroundings (want : Bool) (x : Nibble) (s : State) :
    KeepsSurroundings s (skipIfKey want x s) := by
  intro t h
  obtain ⟨-, rfl⟩ | ⟨-, rfl⟩ := skipIfKey_next h
  · exact ⟨rfl, rfl, rfl, rfl, rfl⟩
  · exact s.sameSurroundings_faulted _

/-- A checked access keeps the surroundings when what it goes on with does. -/
theorem checkData_keepsSurroundings {hi : Nat} {s : State} {go : Result}
    (hgo : KeepsSurroundings s go) : KeepsSurroundings s (checkData hi s go) := by
  intro t h
  obtain ⟨-, h⟩ | ⟨-, rfl⟩ := checkData_next h
  · exact hgo t h
  · exact s.sameSurroundings_faulted _

theorem execRet_keepsSurroundings (s : State) : KeepsSurroundings s (execRet s) := by
  intro t h
  obtain ⟨_, _, rfl⟩ | ⟨-, rfl⟩ := popThen_next h
  · exact ⟨rfl, rfl, rfl, rfl, rfl⟩
  · exact s.sameSurroundings_faulted _

theorem execCallAddr_keepsSurroundings (nnn : Addr) (s : State) :
    KeepsSurroundings s (execCallAddr nnn s) := by
  intro t h
  obtain ⟨_, _, rfl⟩ | ⟨-, rfl⟩ := pushThen_next h
  · exact ⟨rfl, rfl, rfl, rfl, rfl⟩
  · exact s.sameSurroundings_faulted _

theorem execDrwVxVy_keepsSurroundings (x y n : Nibble) (s : State) :
    KeepsSurroundings s (execDrwVxVy x y n s) := by
  intro t h
  obtain ⟨-, rfl⟩ | ⟨-, -, rfl⟩ | ⟨-, -, rfl⟩ := execDrwVxVy_next h
  · exact ⟨rfl, rfl, rfl, rfl, rfl⟩
  · exact ⟨rfl, rfl, rfl, rfl, rfl⟩
  · exact s.sameSurroundings_faulted _

theorem execLdVxK_keepsSurroundings (x : Nibble) (s : State) :
    KeepsSurroundings s (execLdVxK x s) := by
  unfold execLdVxK
  split
  · exact keepsSurroundings_next s.sameSurroundings_awaitPress
  · exact keepsSurroundings_next s.sameSurroundings_awaitPress
  · exact keepsSurroundings_next (s.sameSurroundings_awaitRelease x)

theorem execLoadVx_keepsSurroundings (x : Nibble) (s : State) :
    KeepsSurroundings s (execLoadVx x s) := by
  refine checkData_keepsSurroundings (keepsSurroundings_next ?_)
  constructor <;> simp only [State.loadRegs_keys, State.loadRegs_cfg, State.loadRegs_batch,
    State.loadRegs_rndIn, State.loadRegs_pending]

/-- No instruction writes the keypad latch, the configuration or the record of the environment. -/
theorem exec_keepsSurroundings (i : Instr) (s : State) : KeepsSurroundings s (exec i s) := by
  cases i with
  | ret => exact execRet_keepsSurroundings s
  | callAddr nnn => exact execCallAddr_keepsSurroundings nnn s
  | seVxByte | sneVxByte | seVxVy | sneVxVy => exact skipIf_keepsSurroundings _ s
  | skpVx | sknpVx => exact skipIfKey_keepsSurroundings _ _ s
  | orVxVy | andVxVy | xorVxVy =>
    exact keepsSurroundings_next (s.sameSurroundings_setReg_resetFlag _ _)
  | drwVxVy x y n => exact execDrwVxVy_keepsSurroundings x y n s
  | ldVxK x => exact execLdVxK_keepsSurroundings x s
  | ldBVx | dumpVx =>
    exact checkData_keepsSurroundings (keepsSurroundings_next ⟨rfl, rfl, rfl, rfl, rfl⟩)
  | loadVx x => exact execLoadVx_keepsSurroundings x s
  | cls | jpAddr | jpV0Addr | ldVxByte | addVxByte | ldVxVy | addVxVy | subVxVy | shrVxVy | subnVxVy
  | shlVxVy | ldIAddr | addIVx | ldFVx | rndVxByte | ldVxDT | ldDTVx | ldSTVx | unrecognized =>
    exact keepsSurroundings_next ⟨rfl, rfl, rfl, rfl, rfl⟩

/-- A whole InstrCycle, faulting fetch included, leaves the surroundings as its beginning set them. -/
theorem instrCycle_sameSurroundings {r : Option Byte} {s t : State} (h : instrCycle r s = .next t) :
    (s.beginCycle r).SameSurroundings t := by
  obtain ⟨w, -, h⟩ | ⟨-, rfl⟩ := instrCycle_next h
  · exact (s.beginCycle r).sameSurroundings_advancePc.trans (exec_keepsSurroundings _ _ t h)
  · exact (s.beginCycle r).sameSurroundings_faulted _

/-- Reset alone latches a configuration (R23). -/
theorem deliver_cfg {e : Event} {s t : State} (h : deliver e s = .next t)
    (he : ∀ cfg rom, e ≠ .reset cfg rom) : t.cfg = s.cfg := by
  obtain ⟨_, -, -, h⟩ | ⟨-, -, rfl⟩ | ⟨_, _, -, rfl⟩ | ⟨-, rfl⟩ | ⟨_, _, rfl, -⟩ | ⟨-, -, rfl⟩ :=
    deliver_next h
  · exact (instrCycle_sameSurroundings h).cfg
  · exact tick_cfg s
  · exact keyWrite_cfg s _ _
  · exact redrawAck_cfg s
  · exact absurd rfl (he _ _)
  · rfl

/-- Of the state before it, Reset takes over the count of draws and the queue and nothing else (R220). -/
theorem resetWith_eq_of_draws_pending (cfg : Config) (rom : List Byte) {s s' : State}
    (hd : s'.draws = s.draws) (hp : s'.pending = s.pending) :
    resetWith cfg rom s' = resetWith cfg rom s := by
  simp only [resetWith, cleared, hd, hp]

/-- Settles O22: the pending event is no Reset, and neither a cycle nor a Tick of the schedule latches a
configuration. -/
theorem configurationHeldUntilReset : Obligations.ConfigurationHeldUntilReset := by
  intro s t h hhead
  obtain ⟨e, rest, hp, h⟩ | ⟨-, -, -, h⟩ | ⟨-, -, -, rfl⟩ := step_next h
  · have he : ∀ cfg rom, e ≠ .reset cfg rom := fun cfg rom he =>
      hhead cfg rom (by rw [hp, he, List.head?_cons])
    exact deliver_cfg (s := { s with pending := rest }) h he
  · exact (instrCycle_sameSurroundings h).cfg
  · exact tick_cfg s

/-- Settles O23, event by event; an InstrCycle or a Tick in Fault only leaves the queue. -/
theorem eventsWriteOnlyTheirState : Obligations.EventsWriteOnlyTheirState := by
  intro s t e rest hp h
  rw [step_pending hp] at h
  obtain ⟨_, rfl, -, h⟩ | ⟨rfl, -, rfl⟩ | ⟨_, _, rfl, rfl⟩ | ⟨rfl, rfl⟩ | ⟨cfg, rom, rfl, hwf, rfl⟩ |
    ⟨⟨_, rfl⟩ | rfl, -, rfl⟩ := deliver_next h
  · exact (instrCycle_sameSurroundings h).keys
  · rfl
  · rfl
  · rfl
  · intro s' hp' hd
    rw [step_pending (hp'.trans hp), deliver_reset rom _ hwf]
    exact congrArg _ (resetWith_eq_of_draws_pending cfg rom hd rfl)
  · rfl
  · rfl

/-- Settles O44: a read after a write by the law `State.reg_setReg`, the frame by the definition. -/
theorem registerFileHasSixteenIndependentRegisters :
    Obligations.RegisterFileHasSixteenIndependentRegisters := by
  intro s x y b
  refine ⟨State.reg_setReg s x y b, rfl, ?_⟩
  simp only [State.reg, State.reset, Vector.getElem_replicate]

end Sys2Proof.Machine

/-! An unrecognized word decodes to itself (30_encoding.md rules R65, R66): such a word selects no row of
the opcode map, so the row that its own fields would fill in is not there, and that rules out every
recognized branch of the decoder. -/

namespace Sys2Proof

/-- A row that an unrecognized word meets is no row of the opcode map. -/
theorem not_mem_opcodeMap {w : Word} {r : OpcodeRow} (h : recognized w = false)
    (hr : w &&& r.mask = r.value) : r ∉ opcodeMap := by
  intro hmem
  have hsel : r.selects w = true := beq_iff_eq.mpr hr
  exact absurd (List.any_eq_true.mpr ⟨r, hmem, hsel⟩) (Bool.eq_false_iff.mp h)

/-! The row of each format, filled in with the word's own fields. -/

theorem fixedRow_not_mem {w : Word} (h : recognized w = false) : ⟨0xFFFF, w⟩ ∉ opcodeMap :=
  not_mem_opcodeMap h ((selects_fixed w w).mpr rfl)

theorem nnnRow_not_mem {w : Word} (h : recognized w = false) :
    ⟨0xF000, wordXYN (fieldOp w) 0 0 0⟩ ∉ opcodeMap :=
  not_mem_opcodeMap h ((selects_nnn w _ _ rfl).mpr rfl)

theorem xynRow_not_mem {w : Word} (h : recognized w = false) :
    ⟨0xF00F, wordXYN (fieldOp w) 0 0 (fieldN w)⟩ ∉ opcodeMap :=
  not_mem_opcodeMap h ((selects_xyn w _ _ _ rfl).mpr ⟨rfl, rfl⟩)

theorem xnnRow_not_mem {w : Word} (h : recognized w = false) :
    ⟨0xF0FF, wordXNN (fieldOp w) 0 (fieldNN w)⟩ ∉ opcodeMap :=
  not_mem_opcodeMap h ((selects_xnn w _ _ _ rfl).mpr ⟨rfl, rfl⟩)

/-- The top digits whose family the opcode map leaves partly open. -/
theorem fieldOp_of_not_recognized {w : Word} (h : recognized w = false) :
    fieldOp w = 0x0 ∨ fieldOp w = 0x5 ∨ fieldOp w = 0x8 ∨ fieldOp w = 0x9 ∨ fieldOp w = 0xE ∨
      fieldOp w = 0xF := by
  have hopen : ∀ op : Nibble, ⟨0xF000, wordXYN op 0 0 0⟩ ∉ opcodeMap →
      op = 0x0 ∨ op = 0x5 ∨ op = 0x8 ∨ op = 0x9 ∨ op = 0xE ∨ op = 0xF := by decide
  exact hopen (fieldOp w) (nnnRow_not_mem h)

theorem decodeSystem_of_not_recognized {w : Word} (h : recognized w = false) :
    decodeSystem w = .unrecognized w := by
  have hrow := fixedRow_not_mem h
  have hcls : w ≠ 0x00E0 := by rintro rfl; exact hrow (by decide)
  have hret : w ≠ 0x00EE := by rintro rfl; exact hrow (by decide)
  exact (if_neg hcls).trans (if_neg hret)

/-- In the families 5 and 9 the row is the one with N = 0. -/
theorem fieldN_ne_zero_of_not_recognized {w : Word} (h : recognized w = false)
    (hop : fieldOp w = 0x5 ∨ fieldOp w = 0x9) : fieldN w ≠ 0x0 := by
  intro hn
  have hrow := xynRow_not_mem h
  rw [hn] at hrow
  rcases hop with hop | hop <;> rw [hop] at hrow <;> exact hrow (by decide)

theorem decodeAlu_of_not_recognized {w : Word} (h : recognized w = false) (hop : fieldOp w = 0x8) :
    decodeAlu w = .unrecognized w := by
  have hrow := xynRow_not_mem h
  rw [hop] at hrow
  unfold decodeAlu
  split
  case h_10 => rfl
  all_goals next hn => rw [hn] at hrow; exact absurd (by decide) hrow

theorem decodeKey_of_not_recognized {w : Word} (h : recognized w = false) (hop : fieldOp w = 0xE) :
    decodeKey w = .unrecognized w := by
  have hrow := xnnRow_not_mem h
  rw [hop] at hrow
  unfold decodeKey
  split
  case h_3 => rfl
  all_goals next hnn => rw [hnn] at hrow; exact absurd (by decide) hrow

theorem decodeMisc_of_not_recognized {w : Word} (h : recognized w = false) (hop : fieldOp w = 0xF) :
    decodeMisc w = .unrecognized w := by
  have hrow := xnnRow_not_mem h
  rw [hop] at hrow
  unfold decodeMisc
  split
  case h_10 => rfl
  all_goals next hnn => rw [hnn] at hrow; exact absurd (by decide) hrow

/-- A word that selects no row decodes as unrecognized, whatever its family (R66). -/
theorem decodeWord_of_not_recognized {w : Word} (h : recognized w = false) :
    decodeWord w = .unrecognized w := by
  unfold decodeWord
  rcases fieldOp_of_not_recognized h with hop | hop | hop | hop | hop | hop <;> rw [hop]
  · exact decodeSystem_of_not_recognized h
  · exact if_neg (fieldN_ne_zero_of_not_recognized h (.inl hop))
  · exact decodeAlu_of_not_recognized h hop
  · exact if_neg (fieldN_ne_zero_of_not_recognized h (.inr hop))
  · exact decodeKey_of_not_recognized h hop
  · exact decodeMisc_of_not_recognized h hop

end Sys2Proof

namespace Sys2Proof.Machine

/-- EXECUTE of an unrecognized word changes nothing (R85). -/
theorem exec_unrecognized (w : Word) (s : State) : exec (.unrecognized w) s = .next s := rfl

/-- Settles O36: the fetched word decodes as unrecognized, so of the cycle only its beginning and
FETCH's advance are left. -/
theorem unrecognizedOpcodeOnlyAdvancesPc : Obligations.UnrecognizedOpcodeOnlyAdvancesPc := by
  refine ⟨fun s w => exec_unrecognized w s, fun s rnd w hfetch hw => ?_⟩
  calc instrCycle rnd s
      = exec (decodeWord w) (s.beginCycle rnd).advancePc := instrCycle_fetch rnd hfetch
    _ = exec (.unrecognized w) (s.beginCycle rnd).advancePc := by
        rw [decodeWord_of_not_recognized hw]
    _ = .next (s.beginCycle rnd).advancePc := exec_unrecognized w _

end Sys2Proof.Machine

/-! Control transfer and the register skips (41_flow_and_skip.md rules R100 to R107): first what the stack
operations and the skip answer in each case, then the instructions that are built from them. -/

namespace Sys2Proof.Machine

theorem popThen_of_empty {s : State} (go : Word → State → State) (h : s.sp.val = 0) :
    popThen s go = .next (s.faulted .stackUnderflow) := dif_pos h

/-- A pop from a stack of j + 1 entries hands on entry j. -/
theorem popThen_of_eq_succ {s : State} (go : Word → State → State) (j : Fin 16)
    (h : s.sp.val = j.val + 1) :
    popThen s go = .next (go s.stack[j] { s with sp := ⟨j.val, by omega⟩ }) := by
  unfold popThen
  rw [dif_neg (by omega)]
  simp only [h, Nat.add_sub_cancel, Fin.getElem_fin]

theorem pushThen_of_lt {s : State} (w : Word) (go : State → State)
    (h : s.sp.val < s.cfg.stackCapacity.val) :
    pushThen w s go = .next (go
      { s with stack := s.stack.set s.sp.val w (by have := s.cfg.stackCapacity.isLt; omega)
               sp := ⟨s.sp.val + 1, by have := s.cfg.stackCapacity.isLt; omega⟩ }) := dif_pos h

theorem pushThen_of_full {s : State} (w : Word) (go : State → State)
    (h : s.cfg.stackCapacity.val ≤ s.sp.val) :
    pushThen w s go = .next (s.faulted .stackOverflow) := dif_neg (Nat.not_lt.mpr h)

/-- A skip on equality compares the two bytes as unsigned numbers (R103, R105). -/
theorem skipIf_beq (a b : Byte) (s : State) :
    skipIf (a == b) s = .next { s with pc := if a.toNat = b.toNat then s.pc + 2 else s.pc } := by
  simp only [skipIf_eq, beq_iff_eq, BitVec.toNat_inj]

/-- A skip on inequality is the complement of the skip on equality (R104, R106). -/
theorem skipIf_bne (a b : Byte) (s : State) :
    skipIf (a != b) s = .next { s with pc := if a.toNat = b.toNat then s.pc else s.pc + 2 } := by
  simp only [skipIf_eq, bne_iff_ne, BitVec.toNat_inj, ne_eq, ite_not]

/-- NNN zero-extended is the same number at 16 bits. -/
theorem addrWord_eq_ofNat (nnn : Addr) : addrWord nnn = BitVec.ofNat 16 nnn.toNat :=
  (BitVec.ofNat_toNat 16 nnn).symm

/-- A byte zero-extended is the same number at 16 bits. -/
theorem byteWord_eq_ofNat (b : Byte) : byteWord b = BitVec.ofNat 16 b.toNat :=
  (BitVec.ofNat_toNat 16 b).symm

/-- The X field of BNNN is the top digit of NNN by number (R70). -/
theorem addrX_eq_ofNat (nnn : Addr) : addrX nnn = BitVec.ofNat 4 (nnn.toNat / 256) :=
  congrArg (BitVec.ofNat 4) (Nat.shiftRight_eq_div_pow nnn.toNat 8)

/-- BNNN's target is the sum of the two numbers, at 16 bits and not reduced further (R107). -/
theorem addrWord_add_byteWord (nnn : Addr) (b : Byte) :
    addrWord nnn + byteWord b = BitVec.ofNat 16 (nnn.toNat + b.toNat) := by
  rw [addrWord_eq_ofNat, byteWord_eq_ofNat, BitVec.ofNat_add]

/-- EXECUTE of 00EE is the pop with pc as its destination (R100). -/
theorem exec_ret (s : State) : exec .ret s = popThen s fun w t => { t with pc := w } := rfl

/-- EXECUTE of 1NNN writes pc alone (R101). -/
theorem exec_jpAddr (nnn : Addr) (s : State) :
    exec (.jpAddr nnn) s = .next { s with pc := addrWord nnn } := rfl

/-- EXECUTE of 2NNN is the push of the advanced pc, then the jump (R102). -/
theorem exec_callAddr (nnn : Addr) (s : State) :
    exec (.callAddr nnn) s = pushThen s.pc s fun t => { t with pc := addrWord nnn } := rfl

/-- EXECUTE of BNNN writes pc alone (R107). -/
theorem exec_jpV0Addr (nnn : Addr) (s : State) :
    exec (.jpV0Addr nnn) s = .next { s with pc := addrWord nnn + byteWord (s.jumpBase nnn) } := rfl

/-- Settles O30, by the two cases of the pop. -/
theorem returnPopsTheReturnAddress : Obligations.ReturnPopsTheReturnAddress := by
  intro s
  rw [exec_ret]
  refine ⟨fun h => ?_, fun j h => popThen_of_eq_succ _ j h⟩
  exact popThen_of_empty _ (congrArg Fin.val h)

/-- Settles O31: the jump's target is NNN zero-extended. -/
theorem jumpSetsPc : Obligations.JumpSetsPc := by
  intro s nnn
  rw [exec_jpAddr, addrWord_eq_ofNat]

/-- Settles O32, by the two cases of the push. -/
theorem callPushesTheAdvancedPc : Obligations.CallPushesTheAdvancedPc := by
  intro s nnn
  rw [exec_callAddr, addrWord_eq_ofNat]
  exact ⟨fun h => pushThen_of_full _ _ h.ge, fun h => pushThen_of_lt _ _ h⟩

/-- Settles O33, by the skips on equality and inequality. -/
theorem skipOnByteCompare : Obligations.SkipOnByteCompare := fun s x nn =>
  ⟨skipIf_beq (s.reg x) nn s, skipIf_bne (s.reg x) nn s⟩

/-- Settles O34, by the skips on equality and inequality; a register equals itself. -/
theorem skipOnRegisterCompare : Obligations.SkipOnRegisterCompare := by
  intro s x y
  refine ⟨skipIf_beq _ _ s, skipIf_bne _ _ s, ?_, ?_⟩
  · exact (skipIf_beq (s.reg x) (s.reg x) s).trans (by rw [if_pos rfl])
  · exact (skipIf_bne (s.reg x) (s.reg x) s).trans (by rw [if_pos rfl])

/-- Settles O35: `State.jumpBase` is the base the switch picks, and a 12-bit and an 8-bit number sum to at
most 0xFFF + 0xFF. -/
theorem indexedJumpAddsTheBase : Obligations.IndexedJumpAddsTheBase := by
  intro s nnn base
  have hbase : s.jumpBase nnn = base := by rw [State.jumpBase, addrX_eq_ofNat]
  refine ⟨?_, ?_⟩
  · rw [exec_jpV0Addr, hbase, addrWord_add_byteWord]
  · have := nnn.isLt
    have := base.isLt
    omega

end Sys2Proof.Machine

/-! Load and ALU (42_load_and_alu.md rules R120 to R122): the loads and the immediate addition, which write
V[X] alone and no flag. -/

namespace Sys2Proof.Machine

/-- The sum of two bytes wraps: it is the sum of the two numbers modulo 256. -/
theorem byte_add_eq_ofNat_mod (a b : Byte) : a + b = BitVec.ofNat 8 ((a.toNat + b.toNat) % 256) := by
  apply BitVec.eq_of_toNat_eq
  rw [BitVec.toNat_add, BitVec.toNat_ofNat, Nat.mod_mod]

/-- EXECUTE of 6XNN writes V[X] alone (R120). -/
theorem exec_ldVxByte (x : Nibble) (nn : Byte) (s : State) :
    exec (.ldVxByte x nn) s = .next (s.setReg x nn) := rfl

/-- EXECUTE of 7XNN writes V[X] alone: the sum is followed by no write of the flag (R121). -/
theorem exec_addVxByte (x : Nibble) (nn : Byte) (s : State) :
    exec (.addVxByte x nn) s = .next (s.setReg x (s.reg x + nn)) := rfl

/-- EXECUTE of 8XY0 writes V[X] alone (R122). -/
theorem exec_ldVxVy (x y : Nibble) (s : State) :
    exec (.ldVxVy x y) s = .next (s.setReg x (s.reg y)) := rfl

/-- Settles O38: the load is the instruction's own equation, and a byte sum is the sum modulo 256. -/
theorem loadAndAddImmediate : Obligations.LoadAndAddImmediate := by
  intro s x nn
  refine ⟨exec_ldVxByte x nn s, ?_⟩
  rw [exec_addVxByte, byte_add_eq_ofNat_mod]

/-- Settles O39: with X = Y the register receives its own value, which is no change by
`State.setReg_self`. -/
theorem loadRegister : Obligations.LoadRegister := by
  intro s x y
  refine ⟨exec_ldVxVy x y s, ?_⟩
  rw [exec_ldVxVy, State.setReg_self]

end Sys2Proof.Machine

/-! Index (43_index_and_memory.md rules R140 to R142): the load of I and the two instructions that compute it
from V[X], which write I alone and no flag. -/

namespace Sys2Proof.Machine

/-- A word plus a zero-extended byte wraps at 16 bits: it is the sum of the two numbers modulo 65536
(R141). -/
theorem word_add_byteWord_eq_ofNat_mod (w : Word) (b : Byte) :
    w + byteWord b = BitVec.ofNat 16 ((w.toNat + b.toNat) % 65536) := by
  apply BitVec.eq_of_toNat_eq
  rw [byteWord_eq_ofNat, BitVec.toNat_add, BitVec.toNat_ofNat, BitVec.toNat_ofNat, Nat.add_mod_mod,
    Nat.mod_mod]

/-- A glyph's address is five times the whole byte, not of its low digit (R142). -/
theorem glyphAddress_eq_ofNat (b : Byte) : glyphAddress b = BitVec.ofNat 16 (b.toNat * 5) := by
  rw [BitVec.ofNat_mul, ← byteWord_eq_ofNat]
  rfl

/-- EXECUTE of ANNN writes I alone (R140). -/
theorem exec_ldIAddr (nnn : Addr) (s : State) :
    exec (.ldIAddr nnn) s = .next { s with i := addrWord nnn } := rfl

/-- EXECUTE of FX1E writes I alone: the sum is followed by no write of the flag (R141). -/
theorem exec_addIVx (x : Nibble) (s : State) :
    exec (.addIVx x) s = .next { s with i := s.i + byteWord (s.reg x) } := rfl

/-- EXECUTE of FX29 writes I alone (R142). -/
theorem exec_ldFVx (x : Nibble) (s : State) :
    exec (.ldFVx x) s = .next { s with i := glyphAddress (s.reg x) } := rfl

/-- Settles O45: each instruction's own equation, with the word it writes to I read as a number. -/
theorem indexRegisterLoads : Obligations.IndexRegisterLoads := by
  intro s nnn x
  refine ⟨?_, ?_, ?_⟩
  · rw [exec_ldIAddr, addrWord_eq_ofNat]
  · rw [exec_addIVx, word_add_byteWord_eq_ofNat_mod]
  · rw [exec_ldFVx, glyphAddress_eq_ofNat]

end Sys2Proof.Machine

/-! Display clear (44_display.md rule R160): 00E0 empties the list of cells that are on and raises the redraw
flag, whatever the screen showed before. -/

namespace Sys2Proof.Machine

/-- In the empty pixel buffer no cell is on. -/
@[simp] theorem cellOn_nil (c : Nat) : cellOn [] c = false := rfl

/-- A state whose pixel buffer is empty shows every pixel off, at every display width (R18). -/
theorem State.pixel_of_px_nil {s : State} (h : s.px = []) (x y : Nat) : s.pixel x y = false := by
  rw [State.pixel, h, cellOn_nil]

/-- EXECUTE of 00E0 writes the pixel buffer and the redraw flag alone (R160). -/
theorem exec_cls (s : State) : exec .cls s = .next { s with px := [], redraw := true } := rfl

/-- 00E0 leaves a state alone when its screen is clear and its redraw flag already up. -/
theorem exec_cls_of_clear {s : State} (hpx : s.px = []) (hredraw : s.redraw = true) :
    exec .cls s = .next s := by
  rw [exec_cls, ← hpx, ← hredraw]

/-- Settles O50: the state after 00E0 has the empty buffer and the flag up, so no cell is on and a second
00E0 finds nothing to change. -/
theorem clearTurnsEveryCellOff : Obligations.ClearTurnsEveryCellOff := by
  intro s
  exact ⟨_, exec_cls s, State.pixel_of_px_nil rfl, rfl, rfl, exec_cls_of_clear rfl rfl⟩

end Sys2Proof.Machine

/-! The random source (45_keypad_timers_random.md rule R176, 00_scope.md rule R8): CXNN masks the byte it
draws, and EXECUTE of every other instruction commutes with putting another random source under the state. -/

namespace Sys2Proof.Machine

/-- The state with another random source: the cycle's `rnd` input and the count of draws. -/
def State.withRandom (r : Option Byte) (d : Nat) (s : State) : State := { s with rndIn := r, draws := d }

/-- The result with another random source in its next state, if it is one. -/
def Result.withRandom (r : Option Byte) (d : Nat) : Result → Result
  | .next t => .next (t.withRandom r d)
  | .fault e => .fault e
  | .refused e => .refused e

/-! ### The drawn byte -/

theorem State.rnd_of_some {s : State} {b : Byte} (h : s.rndIn = some b) : s.rnd = b := by
  rw [State.rnd, h]

theorem State.rnd_of_none {s : State} (h : s.rndIn = none) : s.rnd = Config.randomByte s.draws := by
  rw [State.rnd, h]

/-- EXECUTE of CXNN writes the masked byte to V[X] and counts one draw (R176). -/
theorem exec_rndVxByte (x : Nibble) (nn : Byte) (s : State) :
    exec (.rndVxByte x nn) s = .next { s.setReg x (s.rnd &&& nn) with draws := s.draws + 1 } := rfl

/-- After CXNN register X holds the masked byte. -/
theorem reg_of_exec_rndVxByte {x : Nibble} {nn : Byte} {s t : State}
    (h : exec (.rndVxByte x nn) s = .next t) : t.reg x = s.rnd &&& nn := by
  rw [exec_rndVxByte] at h
  injection h with h
  subst h
  exact (State.reg_setReg s x x _).trans (if_pos rfl)

/-! ### The shared operations, and the instructions built from them, ignore the random source -/

section
variable (r : Option Byte) (d : Nat)

theorem checkData_withRandom (hi : Nat) (s : State) (go : Result) :
    checkData hi (s.withRandom r d) (go.withRandom r d) = (checkData hi s go).withRandom r d := by
  unfold checkData
  rw [apply_ite (Result.withRandom r d)]
  rfl

theorem skipIf_withRandom (c : Bool) (s : State) :
    skipIf c (s.withRandom r d) = (skipIf c s).withRandom r d := by
  rw [skipIf_eq, skipIf_eq]
  rfl

theorem skipIfKey_withRandom (want : Bool) (x : Nibble) (s : State) :
    skipIfKey want x (s.withRandom r d) = (skipIfKey want x s).withRandom r d := by
  unfold skipIfKey
  rw [apply_ite (Result.withRandom r d), ← skipIf_withRandom]
  rfl

theorem execRet_withRandom (s : State) : execRet (s.withRandom r d) = (execRet s).withRandom r d := by
  unfold execRet popThen
  rw [apply_dite (Result.withRandom r d)]
  rfl

theorem execCallAddr_withRandom (nnn : Addr) (s : State) :
    execCallAddr nnn (s.withRandom r d) = (execCallAddr nnn s).withRandom r d := by
  unfold execCallAddr pushThen
  rw [apply_dite (Result.withRandom r d)]
  rfl

theorem State.resetFlag_withRandom (s : State) :
    (s.withRandom r d).resetFlag = s.resetFlag.withRandom r d := by
  unfold State.resetFlag
  rw [apply_ite (State.withRandom r d)]
  rfl

theorem firstPressed_withRandom (s : State) (ks : List Nibble) :
    firstPressed (s.withRandom r d) ks = firstPressed s ks := by
  induction ks with
  | nil => rfl
  | cons k ks ih => rw [firstPressed, ih]; rfl

theorem State.awaitPress_withRandom (s : State) :
    (s.withRandom r d).awaitPress = s.awaitPress.withRandom r d := by
  unfold State.awaitPress State.leastPressed
  rw [firstPressed_withRandom]
  cases firstPressed s allKeys with
  | none => rfl
  | some k => rfl

theorem State.awaitRelease_withRandom (x : Nibble) (s : State) :
    (s.withRandom r d).awaitRelease x = (s.awaitRelease x).withRandom r d := by
  unfold State.awaitRelease
  rw [apply_ite (State.withRandom r d)]
  rfl

theorem execLdVxK_withRandom (x : Nibble) (s : State) :
    execLdVxK x (s.withRandom r d) = (execLdVxK x s).withRandom r d := by
  have hkw : (s.withRandom r d).kwState = s.kwState := rfl
  unfold execLdVxK
  rw [hkw, State.awaitPress_withRandom, State.awaitRelease_withRandom]
  cases s.kwState with
  | idle => rfl
  | awaitingPress => rfl
  | awaitingRelease => rfl

theorem execDrwVxVy_withRandom (x y n : Nibble) (s : State) :
    execDrwVxVy x y n (s.withRandom r d) = (execDrwVxVy x y n s).withRandom r d := by
  unfold execDrwVxVy
  rw [apply_ite (Result.withRandom r d), ← checkData_withRandom]
  rfl

/-- Every instruction but CXNN gives the same whatever the random source, which it leaves alone. -/
theorem exec_withRandom {i : Instr} (hi : ∀ x nn, i ≠ .rndVxByte x nn) (s : State) :
    exec i (s.withRandom r d) = Result.withRandom r d (exec i s) := by
  cases i with
  | rndVxByte x nn => exact absurd rfl (hi x nn)
  | ret => exact execRet_withRandom r d s
  | callAddr nnn => exact execCallAddr_withRandom r d nnn s
  | seVxByte | sneVxByte | seVxVy | sneVxVy => exact skipIf_withRandom r d _ s
  | skpVx | sknpVx => exact skipIfKey_withRandom r d _ _ s
  | orVxVy x y | andVxVy x y | xorVxVy x y =>
    exact congrArg _ (State.resetFlag_withRandom r d (s.setReg x _))
  | drwVxVy x y n => exact execDrwVxVy_withRandom r d x y n s
  | ldVxK x => exact execLdVxK_withRandom r d x s
  | ldBVx | dumpVx | loadVx =>
    -- Turned round, so that unification meets the plain `checkData` first and reads the access off it.
    symm
    exact (checkData_withRandom r d _ s _).symm
  | cls | jpAddr | jpV0Addr | ldVxByte | addVxByte | ldVxVy | addVxVy | subVxVy | shrVxVy | subnVxVy
  | shlVxVy | ldIAddr | addIVx | ldFVx | ldVxDT | ldDTVx | ldSTVx | unrecognized => rfl

end

/-- Settles O57: CXNN by its equation and the two cases of the drawn byte, every other instruction by
`exec_withRandom`. -/
theorem randomByteIsMasked : Obligations.RandomByteIsMasked := by
  refine ⟨fun s x nn => ⟨fun b hb => ?_, fun hnone => ?_, fun t h j hj => ?_⟩,
    fun i s t r d hi h => ?_⟩
  · rw [exec_rndVxByte, State.rnd_of_some hb]
  · rw [exec_rndVxByte, State.rnd_of_none hnone]
  · rw [reg_of_exec_rndVxByte h, BitVec.getLsbD_and, hj, Bool.and_false]
  · exact (exec_withRandom r d hi s).trans (congrArg (Result.withRandom r d) h)

end Sys2Proof.Machine

/-! Timers (45_keypad_timers_random.md rules R173 to R175): the three copies between V[X] and a timer. -/

namespace Sys2Proof.Machine

/-- The tone output is on exactly while the sound timer is not 0 (R199). -/
theorem State.tone_iff (s : State) : s.tone = true ↔ s.st.toNat ≠ 0 := by
  rw [State.tone, bne_iff_ne, ne_eq, ← BitVec.toNat_inj]
  rfl

/-- EXECUTE of FX07 writes V[X] alone (R173). -/
theorem exec_ldVxDT (x : Nibble) (s : State) : exec (.ldVxDT x) s = .next (s.setReg x s.dt) := rfl

/-- EXECUTE of FX15 writes DT alone (R174). -/
theorem exec_ldDTVx (x : Nibble) (s : State) : exec (.ldDTVx x) s = .next { s with dt := s.reg x } := rfl

/-- EXECUTE of FX18 writes ST alone (R175). -/
theorem exec_ldSTVx (x : Nibble) (s : State) : exec (.ldSTVx x) s = .next { s with st := s.reg x } := rfl

/-- Settles O56: each instruction's own equation; the tone follows the value FX18 wrote to ST. -/
theorem timerRegistersAreCopied : Obligations.TimerRegistersAreCopied := by
  intro s x
  refine ⟨exec_ldVxDT x s, exec_ldDTVx x s, exec_ldSTVx x s, fun t h => ?_⟩
  rw [exec_ldSTVx] at h
  injection h with h
  rw [State.tone_iff, ← h]

end Sys2Proof.Machine

/-! Events (60_exceptions.md rules R198, R204, R205): what a Tick does to one timer, alone and repeated, and
the steps that deliver a Tick, a KeyWrite and a RedrawAck. -/

namespace Sys2Proof.Machine

/-! ### A timer under ticks -/

/-- The decrement with a floor at 0 is subtraction of 1 on natural numbers (R198). -/
theorem toNat_countDown (b : Byte) : (countDown b).toNat = b.toNat - 1 := by
  by_cases hb : b = 0
  · rw [countDown, if_pos hb, hb]
    rfl
  · have hpos : 1 ≤ b.toNat := Nat.one_le_iff_ne_zero.mpr fun h0 => hb (BitVec.eq_of_toNat_eq h0)
    rw [countDown, if_neg hb]
    exact BitVec.toNat_sub_of_le hpos

theorem countDown_eq_ofNat (b : Byte) : countDown b = BitVec.ofNat 8 (b.toNat - 1) := by
  rw [← toNat_countDown, BitVec.ofNat_toNat, BitVec.setWidth_eq]

theorem toNat_countDown_iterate (n : Nat) (b : Byte) : (countDown^[n] b).toNat = b.toNat - n := by
  induction n with
  | zero => rfl
  | succ n ih => rw [Function.iterate_succ_apply', toNat_countDown, ih, Nat.sub_sub]

theorem countDown_iterate_eq_zero_iff (n : Nat) (b : Byte) : countDown^[n] b = 0 ↔ b.toNat ≤ n := by
  rw [← BitVec.toNat_inj, toNat_countDown_iterate]
  exact Nat.sub_eq_zero_iff_le

theorem dt_tick_iterate (n : Nat) (s : State) : (tick^[n] s).dt = countDown^[n] s.dt :=
  Function.Semiconj.iterate_right (f := State.dt) tick_dt n s

theorem st_tick_iterate (n : Nat) (s : State) : (tick^[n] s).st = countDown^[n] s.st :=
  Function.Semiconj.iterate_right (f := State.st) tick_st n s

theorem tick_eq_ofNat (s : State) :
    tick s = { s with dt := BitVec.ofNat 8 (s.dt.toNat - 1), st := BitVec.ofNat 8 (s.st.toNat - 1),
                      batch := 0 } := by
  rw [tick, countDown_eq_ofNat, countDown_eq_ofNat]

/-! ### The events that are always enabled -/

theorem deliver_keyWrite (k : Nibble) (b : Bool) (s : State) :
    deliver (.keyWrite k b) s = .next (keyWrite k b s) := rfl

theorem deliver_redrawAck (s : State) : deliver .redrawAck s = .next (redrawAck s) := rfl

/-! ### The redraw flag -/

/-- EXECUTE of DXYN raises the redraw flag, with or without a sprite row, unless it faults (R161). -/
theorem redraw_of_exec_drwVxVy {x y n : Nibble} {s t : State} (h : exec (.drwVxVy x y n) s = .next t)
    (ht : t.runState = .running) : t.redraw = true := by
  obtain ⟨-, rfl⟩ | ⟨-, -, rfl⟩ | ⟨-, -, rfl⟩ := execDrwVxVy_next h
  · exact s.drawn_redraw _
  · exact s.drawn_redraw _
  · cases ht

/-! ### The obligations -/

/-- Settles O10: the step delivers the Tick, and the value of a timer after n ticks decides when it is 0. -/
theorem tickDecrementsBothTimers : Obligations.TickDecrementsBothTimers := by
  refine ⟨fun s rest hr hp => ?_, fun s n => ⟨?_, ?_⟩⟩
  · rw [step_pending hp, deliver_tick (s := { s with pending := rest }) hr, tick_eq_ofNat]
  · rw [dt_tick_iterate, countDown_iterate_eq_zero_iff]
  · rw [st_tick_iterate, countDown_iterate_eq_zero_iff]

/-- Settles O12: the delivered write, whose reading is the law `State.key_keyWrite`. -/
theorem keyWriteSetsOneKey : Obligations.KeyWriteSetsOneKey := by
  intro s k b rest hp
  refine ⟨keyWrite k b { s with pending := rest }, ?_, fun j => ?_, rfl⟩
  · rw [step_pending hp, deliver_keyWrite]
  · exact State.key_keyWrite _ k j b

/-- Settles O13: the delivered acknowledgement, the equation of 00E0, and the cases of DXYN. -/
theorem redrawAckClearsRedraw : Obligations.RedrawAckClearsRedraw := by
  refine ⟨fun s rest hp => ?_, fun s t x y n => ⟨fun h => ?_, fun h _ ht => ?_⟩⟩
  · rw [step_pending hp, deliver_redrawAck, redrawAck]
  · rw [exec_cls] at h
    injection h with h
    rw [← h]
  · exact redraw_of_exec_drwVxVy h ht

end Sys2Proof.Machine

/-! Reset (70_reset_and_hazards.md rules R220 to R223): the memory it builds, address by address, and the
whole state it answers. -/

namespace Sys2Proof.Machine

/-! ### The font (R222) -/

/-- Outside the font an unlisted address holds 0 (R220). -/
theorem unlisted_of_le {a : Nat} (h : 80 ≤ a) : unlisted a = 0 :=
  List.getD_eq_default conventionalFont.toList 0 (by rwa [Vector.length_toList])

theorem wf_fontMemory (cfg : Config) : Memory.wf (fontMemory cfg) = true :=
  Memory.wf_writeBytes rfl (by rw [Vector.length_toList]; decide)

/-- The latched font at 0 to 79 and 0 everywhere else, whatever font an unlisted address reads as. -/
theorem read_fontMemory (cfg : Config) (a : Nat) :
    Memory.read (fontMemory cfg) a = if h : a < 80 then cfg.font[a] else 0 := by
  have hfits : 0 + cfg.font.toList.length ≤ 4096 := by rw [Vector.length_toList]; decide
  rw [fontMemory, Memory.read_writeBytes a rfl hfits, Vector.length_toList]
  by_cases h : a < 80
  · simp [h]
  · simp [h, Memory.read, unlisted_of_le (Nat.le_of_not_lt h)]

@[simp] theorem cleared_mem (cfg : Config) (s : State) : (cleared cfg s).mem = fontMemory cfg := rfl

/-! ### The two outcomes of the ROM's length check (R221) -/

theorem resetWith_of_le {rom : List Byte} (cfg : Config) (s : State) (h : rom.length ≤ 3584) :
    resetWith cfg rom s =
      { cleared cfg s with mem := Memory.writeBytes (fontMemory cfg) 0x200 rom } := if_pos h

theorem resetWith_of_lt {rom : List Byte} (cfg : Config) (s : State) (h : 3584 < rom.length) :
    resetWith cfg rom s = (cleared cfg s).faulted .romTooLarge := if_neg (Nat.not_le_of_lt h)

/-! ### The memory and the state Reset answers -/

theorem wf_resetWith_mem (cfg : Config) (rom : List Byte) (s : State) :
    Memory.wf (resetWith cfg rom s).mem = true := by
  rcases Nat.lt_or_ge 3584 rom.length with h | h
  · rw [resetWith_of_lt cfg s h]
    exact wf_fontMemory cfg
  · rw [resetWith_of_le cfg s h]
    exact Memory.wf_writeBytes (wf_fontMemory cfg) (by omega)

/-- The ROM starts above the font, so a read finds one or the other (R222). -/
theorem read_resetWith_mem (cfg : Config) (rom : List Byte) (s : State) (a : Nat) :
    Memory.read (resetWith cfg rom s).mem a =
      if h : a < 80 then cfg.font[a]
      else if rom.length ≤ 3584 ∧ 0x200 ≤ a ∧ a < 0x200 + rom.length then rom.getD (a - 0x200) 0
      else 0 := by
  rcases Nat.lt_or_ge 3584 rom.length with h | h
  · have hreject : ¬ rom.length ≤ 3584 := Nat.not_le_of_lt h
    rw [resetWith_of_lt cfg s h, State.faulted_mem, cleared_mem, read_fontMemory]
    simp [hreject]
  · rw [resetWith_of_le cfg s h, Memory.read_writeBytes a (wf_fontMemory cfg) (by omega),
      read_fontMemory]
    by_cases hfont : a < 80
    · have hbelow : ¬ 0x200 ≤ a := by omega
      simp [hfont, hbelow]
    · simp [hfont, h]

/-- Every field but memory, for a ROM of any length: of the state before, only the count of draws and the
queue are taken over. -/
theorem resetWith_eq (cfg : Config) (rom : List Byte) (s : State) :
    resetWith cfg rom s =
      { State.reset with
        runState := if rom.length ≤ 3584 then .running else .fault
        faultCause := if rom.length ≤ 3584 then .none else .romTooLarge
        mem := (resetWith cfg rom s).mem, cfg := cfg, draws := s.draws, pending := s.pending } := by
  rcases Nat.lt_or_ge 3584 rom.length with h | h
  · rw [resetWith_of_lt cfg s h, if_neg (Nat.not_le_of_lt h), if_neg (Nat.not_le_of_lt h)]
    rfl
  · rw [resetWith_of_le cfg s h, if_pos h, if_pos h]
    rfl

/-! ### The obligation -/

/-- Settles O14: the delivered Reset, whose fields and memory the laws above give. -/
theorem resetBuildsWholeState : Obligations.ResetBuildsWholeState := by
  intro s cfg rom rest hp hwf
  refine ⟨resetWith cfg rom { s with pending := rest }, ?_, ?_, ?_, fun a _ => ?_⟩
  · rw [step_pending hp, deliver_reset rom _ hwf]
  · exact resetWith_eq cfg rom _
  · exact wf_resetWith_mem cfg rom _
  · exact read_resetWith_mem cfg rom _ a

end Sys2Proof.Machine

/-! Encoding (30_encoding.md rules R61 to R66): the decoder reads back what the encoder writes, so every row
of the opcode map decodes by its format, and a word is unrecognized exactly in the six families of R66. -/

namespace Sys2Proof

/-! ### Decode after encode -/

/-- The decoder reads every well-formed instruction back from its word. -/
theorem decodeWord_encode {i : Instr} (hi : i.wf = true) : decodeWord (encode i) = i := by
  cases i with
  | unrecognized w => exact decodeWord_of_not_recognized (Bool.not_eq_true' _ |>.mp hi)
  | cls | ret => rfl
  | jpAddr | callAddr | seVxByte | sneVxByte | ldVxByte | addVxByte | ldIAddr | jpV0Addr | rndVxByte
  | drwVxVy => simp [encode, decodeWord]
  | seVxVy | sneVxVy => simp [encode, decodeWord]
  | ldVxVy | orVxVy | andVxVy | xorVxVy | addVxVy | subVxVy | shrVxVy | subnVxVy | shlVxVy =>
    simp [encode, decodeWord, decodeAlu]
  | skpVx | sknpVx => simp [encode, decodeWord, decodeKey]
  | ldVxDT | ldVxK | ldDTVx | ldSTVx | addIVx | ldFVx | ldBVx | dumpVx | loadVx =>
    simp [encode, decodeWord, decodeMisc]

/-- Settles O2: the two bytes are read as the instruction's word, which decodes to the instruction. -/
theorem decodeInvertsEncode : Obligations.DecodeInvertsEncode := by
  intro i rest hi
  rw [encodeBytes, decodeBytes_bytesOfWord, decodeWord_encode hi]

/-- Settles O1: the decoder run on each of the listed words. -/
theorem sampleWordsDecode : Obligations.SampleWordsDecode :=
  ⟨rfl, rfl, rfl, rfl, rfl, rfl, rfl, rfl, rfl, rfl, rfl, rfl, rfl⟩

/-! ### The rows of the opcode map (R65) -/

theorem wordNNN_of_fields {w : Word} {op : Nibble} (hop : fieldOp w = op) :
    wordNNN op (fieldNNN w) = w := hop ▸ wordNNN_fields w

theorem wordXNN_of_fields {w : Word} {op : Nibble} {nn : Byte} (hop : fieldOp w = op)
    (hnn : fieldNN w = nn) : wordXNN op (fieldX w) nn = w := hop ▸ hnn ▸ wordXNN_fields w

theorem wordXYN_of_fields {w : Word} {op n : Nibble} (hop : fieldOp w = op) (hn : fieldN w = n) :
    wordXYN op (fieldX w) (fieldY w) n = w := hop ▸ hn ▸ wordXYN_fields w

theorem decodeWord_of_encode_eq {i : Instr} {w : Word} (hi : i.wf = true) (h : encode i = w) :
    decodeWord w = i := h ▸ decodeWord_encode hi

section
variable {w v : Word}

theorem decodeWord_of_nnnRow {f : Addr → Instr} (h : w &&& 0xF000 = v)
    (hv : v = wordXYN (fieldOp v) 0 0 0 := by decide)
    (hf : ∀ nnn, encode (f nnn) = wordNNN (fieldOp v) nnn ∧ (f nnn).wf = true := by
      exact fun _ => ⟨rfl, rfl⟩) :
    decodeWord w = f (fieldNNN w) := by
  have hop : fieldOp w = fieldOp v := (selects_nnn w _ v hv).mp h
  obtain ⟨henc, hwf⟩ := hf (fieldNNN w)
  exact decodeWord_of_encode_eq hwf (henc.trans (wordNNN_of_fields hop))

theorem decodeWord_of_xnnRow {f : Nibble → Byte → Instr} (h : w &&& 0xF000 = v)
    (hv : v = wordXYN (fieldOp v) 0 0 0 := by decide)
    (hf : ∀ x nn, encode (f x nn) = wordXNN (fieldOp v) x nn ∧ (f x nn).wf = true := by
      exact fun _ _ => ⟨rfl, rfl⟩) :
    decodeWord w = f (fieldX w) (fieldNN w) := by
  have hop : fieldOp w = fieldOp v := (selects_nnn w _ v hv).mp h
  obtain ⟨henc, hwf⟩ := hf (fieldX w) (fieldNN w)
  exact decodeWord_of_encode_eq hwf (henc.trans (wordXNN_of_fields hop rfl))

theorem decodeWord_of_xynRow {f : Nibble → Nibble → Nibble → Instr} (h : w &&& 0xF000 = v)
    (hv : v = wordXYN (fieldOp v) 0 0 0 := by decide)
    (hf : ∀ x y n, encode (f x y n) = wordXYN (fieldOp v) x y n ∧ (f x y n).wf = true := by
      exact fun _ _ _ => ⟨rfl, rfl⟩) :
    decodeWord w = f (fieldX w) (fieldY w) (fieldN w) := by
  have hop : fieldOp w = fieldOp v := (selects_nnn w _ v hv).mp h
  obtain ⟨henc, hwf⟩ := hf (fieldX w) (fieldY w) (fieldN w)
  exact decodeWord_of_encode_eq hwf (henc.trans (wordXYN_of_fields hop rfl))

theorem decodeWord_of_xyRow {f : Nibble → Nibble → Instr} (h : w &&& 0xF00F = v)
    (hv : v = wordXYN (fieldOp v) 0 0 (fieldN v) := by decide)
    (hf : ∀ x y, encode (f x y) = wordXYN (fieldOp v) x y (fieldN v) ∧ (f x y).wf = true := by
      exact fun _ _ => ⟨rfl, rfl⟩) :
    decodeWord w = f (fieldX w) (fieldY w) := by
  obtain ⟨hop, hn⟩ := (selects_xyn w _ _ v hv).mp h
  obtain ⟨henc, hwf⟩ := hf (fieldX w) (fieldY w)
  exact decodeWord_of_encode_eq hwf (henc.trans (wordXYN_of_fields hop hn))

theorem decodeWord_of_xRow {f : Nibble → Instr} (h : w &&& 0xF0FF = v)
    (hv : v = wordXNN (fieldOp v) 0 (fieldNN v) := by decide)
    (hf : ∀ x, encode (f x) = wordXNN (fieldOp v) x (fieldNN v) ∧ (f x).wf = true := by
      exact fun _ => ⟨rfl, rfl⟩) :
    decodeWord w = f (fieldX w) := by
  obtain ⟨hop, hnn⟩ := (selects_xnn w _ _ v hv).mp h
  obtain ⟨henc, hwf⟩ := hf (fieldX w)
  exact decodeWord_of_encode_eq hwf (henc.trans (wordXNN_of_fields hop hnn))

end

/-! The fields are the digits of O4's statement. -/

theorem fieldX_eq_ofNat_digit (w : Word) : fieldX w = BitVec.ofNat 4 (Machine.digit w 2) :=
  BitVec.eq_of_toNat_eq (by rw [fieldX_toNat, BitVec.toNat_ofNat]; simp [Machine.digit])

theorem fieldY_eq_ofNat_digit (w : Word) : fieldY w = BitVec.ofNat 4 (Machine.digit w 1) :=
  BitVec.eq_of_toNat_eq (by rw [fieldY_toNat, BitVec.toNat_ofNat]; simp [Machine.digit])

theorem fieldN_eq_ofNat_digit (w : Word) : fieldN w = BitVec.ofNat 4 (Machine.digit w 0) :=
  BitVec.eq_of_toNat_eq (by rw [fieldN_toNat, BitVec.toNat_ofNat]; simp [Machine.digit])

theorem fieldNN_eq_ofNat (w : Word) : fieldNN w = BitVec.ofNat 8 (w.toNat % 256) :=
  BitVec.eq_of_toNat_eq (by rw [fieldNN_toNat, BitVec.toNat_ofNat, Nat.mod_mod])

theorem fieldNNN_eq_ofNat (w : Word) : fieldNNN w = BitVec.ofNat 12 (w.toNat % 4096) :=
  BitVec.eq_of_toNat_eq (by rw [fieldNNN_toNat, BitVec.toNat_ofNat, Nat.mod_mod])

/-- Two rows that both select a word agree where both their masks look. -/
theorem value_and_mask_eq {r r' : OpcodeRow} {w : Word} (h : r.selects w = true)
    (h' : r'.selects w = true) : r.value &&& r'.mask = r'.value &&& r.mask := by
  rw [← beq_iff_eq.mp h, ← beq_iff_eq.mp h', BitVec.and_assoc, BitVec.and_assoc,
    BitVec.and_comm r.mask]

/-- Settles O4: each row by the lemma of its format; two rows differ somewhere in both their masks. -/
theorem decodeFollowsOpcodeMap : Obligations.DecodeFollowsOpcodeMap := by
  refine ⟨fun w => ?_, ?_⟩
  · simp only [← fieldX_eq_ofNat_digit, ← fieldY_eq_ofNat_digit, ← fieldN_eq_ofNat_digit,
      ← fieldNN_eq_ofNat, ← fieldNNN_eq_ofNat]
    exact ⟨congrArg decodeWord, congrArg decodeWord,
      (decodeWord_of_nnnRow ·), (decodeWord_of_nnnRow ·), (decodeWord_of_xnnRow ·),
      (decodeWord_of_xnnRow ·), (decodeWord_of_xyRow ·), (decodeWord_of_xnnRow ·),
      (decodeWord_of_xnnRow ·), (decodeWord_of_xyRow ·), (decodeWord_of_xyRow ·),
      (decodeWord_of_xyRow ·), (decodeWord_of_xyRow ·), (decodeWord_of_xyRow ·),
      (decodeWord_of_xyRow ·), (decodeWord_of_xyRow ·), (decodeWord_of_xyRow ·),
      (decodeWord_of_xyRow ·), (decodeWord_of_xyRow ·), (decodeWord_of_nnnRow ·),
      (decodeWord_of_nnnRow ·), (decodeWord_of_xnnRow ·), (decodeWord_of_xynRow ·),
      (decodeWord_of_xRow ·), (decodeWord_of_xRow ·), (decodeWord_of_xRow ·),
      (decodeWord_of_xRow ·), (decodeWord_of_xRow ·), (decodeWord_of_xRow ·),
      (decodeWord_of_xRow ·), (decodeWord_of_xRow ·), (decodeWord_of_xRow ·),
      (decodeWord_of_xRow ·), (decodeWord_of_xRow ·),
      decodeWord_of_not_recognized⟩
  · have hdiffer : opcodeMap.Pairwise fun r r' => r.value &&& r'.mask ≠ r'.value &&& r.mask := by
      decide
    exact hdiffer.imp fun hne w ⟨h, h'⟩ => hne (value_and_mask_eq h h')

/-! ### Which words select a row -/

/-- The masks read as fields. -/
theorem recognized_iff (w : Word) : recognized w = true ↔
    (w = 0x00E0 ∨ w = 0x00EE) ∨
    fieldOp w ∈ [0x1, 0x2, 0x3, 0x4] ∨ (fieldOp w = 0x5 ∧ fieldN w = 0x0) ∨ fieldOp w ∈ [0x6, 0x7] ∨
    (fieldOp w = 0x8 ∧ fieldN w ∈ [0x0, 0x1, 0x2, 0x3, 0x4, 0x5, 0x6, 0x7, 0xE]) ∨
    (fieldOp w = 0x9 ∧ fieldN w = 0x0) ∨ fieldOp w ∈ [0xA, 0xB, 0xC, 0xD] ∨
    (fieldOp w = 0xE ∧ fieldNN w ∈ [0x9E, 0xA1]) ∨
    (fieldOp w = 0xF ∧ fieldNN w ∈ [0x07, 0x0A, 0x15, 0x18, 0x1E, 0x29, 0x33, 0x55, 0x65]) := by
  have nnn (v : Word) (hv : v = wordXYN (fieldOp v) 0 0 0) := selects_nnn w (fieldOp v) v hv
  have xyn (v : Word) (hv : v = wordXYN (fieldOp v) 0 0 (fieldN v)) :=
    selects_xyn w (fieldOp v) (fieldN v) v hv
  have xnn (v : Word) (hv : v = wordXNN (fieldOp v) 0 (fieldNN v)) :=
    selects_xnn w (fieldOp v) (fieldNN v) v hv
  simp only [recognized, opcodeMap, OpcodeRow.selects, List.any_append, List.any_cons, List.any_nil,
    beq_iff_eq, Bool.or_eq_true, Bool.or_false, BitVec.ofNat_eq_ofNat, selects_fixed]
  simp (disch := decide) only [nnn, xyn, xnn]
  simp only [List.mem_cons, List.not_mem_nil, or_false, and_or_left, or_assoc]
  simp [fieldOp, fieldN, fieldNN]

/-! ### Encode after decode -/

/-- A word that selects a row decodes to that row's instruction, any other to itself. -/
theorem wf_decodeWord (w : Word) : (decodeWord w).wf = true := by
  cases h : recognized w with
  | false => rw [decodeWord_of_not_recognized h, Instr.wf, h]; rfl
  | true =>
    simp only [recognized_iff, List.mem_cons, List.not_mem_nil, or_false] at h
    rcases h with (rfl | rfl) | h | ⟨h, hn⟩ | h | ⟨h, hn⟩ | ⟨h, hn⟩ | h | ⟨h, hn⟩ | ⟨h, hn⟩
    · rfl
    · rfl
    · rcases h with h | h | h | h <;> simp [decodeWord, h, Instr.wf]
    · simp [decodeWord, h, hn, Instr.wf]
    · rcases h with h | h <;> simp [decodeWord, h, Instr.wf]
    · rcases hn with hn | hn | hn | hn | hn | hn | hn | hn | hn <;>
        simp [decodeWord, decodeAlu, h, hn, Instr.wf]
    · simp [decodeWord, h, hn, Instr.wf]
    · rcases h with h | h | h | h <;> simp [decodeWord, h, Instr.wf]
    · rcases hn with hn | hn <;> simp [decodeWord, decodeKey, h, hn, Instr.wf]
    · rcases hn with hn | hn | hn | hn | hn | hn | hn | hn | hn <;>
        simp [decodeWord, decodeMisc, h, hn, Instr.wf]

theorem encode_decodeSystem (w : Word) : encode (decodeSystem w) = w := by
  unfold decodeSystem
  split
  next h => exact h.symm
  next =>
    split
    next h => exact h.symm
    next => rfl

theorem encode_decodeAlu {w : Word} (hop : fieldOp w = 0x8) : encode (decodeAlu w) = w := by
  unfold decodeAlu
  split
  case h_10 => rfl
  all_goals next hn => exact wordXYN_of_fields hop hn

theorem encode_decodeKey {w : Word} (hop : fieldOp w = 0xE) : encode (decodeKey w) = w := by
  unfold decodeKey
  split
  case h_3 => rfl
  all_goals next hnn => exact wordXNN_of_fields hop hnn

theorem encode_decodeMisc {w : Word} (hop : fieldOp w = 0xF) : encode (decodeMisc w) = w := by
  unfold decodeMisc
  split
  case h_10 => rfl
  all_goals next hnn => exact wordXNN_of_fields hop hnn

/-- The families 5 and 9: a row only with N = 0. -/
theorem encode_ite_fieldN {w : Word} {i : Instr} (h : fieldN w = 0x0 → encode i = w) :
    encode (if fieldN w = 0x0 then i else .unrecognized w) = w := by
  split
  next hn => exact h hn
  next => rfl

/-- The word of a word's instruction is that word, family by family. -/
theorem encode_decodeWord (w : Word) : encode (decodeWord w) = w := by
  unfold decodeWord
  split
  next => exact encode_decodeSystem w
  next hop => exact wordNNN_of_fields hop
  next hop => exact wordNNN_of_fields hop
  next hop => exact wordXNN_of_fields hop rfl
  next hop => exact wordXNN_of_fields hop rfl
  next hop => exact encode_ite_fieldN (wordXYN_of_fields hop)
  next hop => exact wordXNN_of_fields hop rfl
  next hop => exact wordXNN_of_fields hop rfl
  next hop => exact encode_decodeAlu hop
  next hop => exact encode_ite_fieldN (wordXYN_of_fields hop)
  next hop => exact wordNNN_of_fields hop
  next hop => exact wordNNN_of_fields hop
  next hop => exact wordXNN_of_fields hop rfl
  next hop => exact wordXYN_of_fields hop rfl
  next hop => exact encode_decodeKey hop
  next =>
    have hop : fieldOp w = 0xF := by
      rcases nibble_cases (fieldOp w) with h | h | h | h | h | h | h | h | h | h | h | h | h | h | h | h
      case inr.inr.inr.inr.inr.inr.inr.inr.inr.inr.inr.inr.inr.inr.inr => exact h
      all_goals contradiction
    exact encode_decodeMisc hop

/-- Settles O3: the word of the decoded instruction is the word read, and so its two bytes are the bytes
read. -/
theorem encodeInvertsDecode : Obligations.EncodeInvertsDecode := by
  refine ⟨fun w => ⟨wf_decodeWord w, encode_decodeWord w⟩, fun hi lo rest => ⟨_, rfl, ?_⟩⟩
  rw [encodeBytes, encode_decodeWord, bytesOfWord_wordOfBytes]

/-- A word decodes as unrecognized exactly when it selects no row (R66). -/
theorem decodeWord_eq_unrecognized_iff (w : Word) :
    decodeWord w = .unrecognized w ↔ recognized w = false := by
  refine ⟨fun h => ?_, decodeWord_of_not_recognized⟩
  have hwf := wf_decodeWord w
  rw [h] at hwf
  exact Bool.not_eq_true' _ |>.mp hwf

/-- The six families of R66 by fields: what the rows leave of each top digit. -/
theorem not_recognized_iff (w : Word) : recognized w = false ↔
    (fieldOp w = 0x0 ∧ w ≠ 0x00E0 ∧ w ≠ 0x00EE) ∨
    (fieldOp w = 0x5 ∧ fieldN w ≠ 0x0) ∨
    (fieldOp w = 0x8 ∧ fieldN w ∈ [0x8, 0x9, 0xA, 0xB, 0xC, 0xD, 0xF]) ∨
    (fieldOp w = 0x9 ∧ fieldN w ≠ 0x0) ∨
    (fieldOp w = 0xE ∧ fieldNN w ∉ [0x9E, 0xA1]) ∨
    (fieldOp w = 0xF ∧ fieldNN w ∉ [0x07, 0x0A, 0x15, 0x18, 0x1E, 0x29, 0x33, 0x55, 0x65]) := by
  have hfixed : (w = 0x00E0 ∨ w = 0x00EE) ↔ fieldOp w = 0x0 ∧ (w = 0x00E0 ∨ w = 0x00EE) :=
    iff_and_self.mpr fun h => by rcases h with rfl | rfl <;> rfl
  have hfree : ∀ n : Nibble, n ∈ [0x8, 0x9, 0xA, 0xB, 0xC, 0xD, 0xF] ↔
      n ∉ [0x0, 0x1, 0x2, 0x3, 0x4, 0x5, 0x6, 0x7, 0xE] := by decide
  rw [Bool.eq_false_iff, ne_eq, recognized_iff, hfixed, hfree]
  rcases nibble_cases (fieldOp w) with h | h | h | h | h | h | h | h | h | h | h | h | h | h | h | h <;>
    simp [h]

end Sys2Proof

/-! ### The unrecognized words by digits, and their counts (R66) -/

namespace Sys2Proof.Machine

theorem fieldOp_eq_iff (w : Word) (k : Nibble) : fieldOp w = k ↔ digit w 3 = k.toNat := by
  rw [← BitVec.toNat_inj, fieldOp_toNat, digit, Nat.mod_eq_of_lt (by omega)]
  rfl

theorem fieldN_eq_iff (w : Word) (n : Nibble) : fieldN w = n ↔ digit w 0 = n.toNat := by
  rw [← BitVec.toNat_inj, fieldN_toNat, digit, pow_zero, Nat.div_one]

theorem fieldNN_eq_toNat_iff (w : Word) (nn : Byte) : fieldNN w = nn ↔ w.toNat % 256 = nn.toNat := by
  rw [← BitVec.toNat_inj, fieldNN_toNat]

/-- The six families of R66 by digits. -/
theorem not_recognized_iff_digits (w : Word) : recognized w = false ↔
    (digit w 3 = 0x0 ∧ w ≠ 0x00E0 ∧ w ≠ 0x00EE) ∨
    (digit w 3 = 0x5 ∧ digit w 0 ≠ 0) ∨
    (digit w 3 = 0x8 ∧ digit w 0 ∈ [0x8, 0x9, 0xA, 0xB, 0xC, 0xD, 0xF]) ∨
    (digit w 3 = 0x9 ∧ digit w 0 ≠ 0) ∨
    (digit w 3 = 0xE ∧ w.toNat % 256 ∉ [0x9E, 0xA1]) ∨
    (digit w 3 = 0xF ∧ w.toNat % 256 ∉ [0x07, 0x0A, 0x15, 0x18, 0x1E, 0x29, 0x33, 0x55, 0x65]) := by
  rw [not_recognized_iff]
  simp only [fieldOp_eq_iff, ne_eq, fieldN_eq_iff, fieldNN_eq_toNat_iff, List.mem_cons,
    List.not_mem_nil]
  rfl

/-- Whether the word with top digit op and lower digits k selects no row, in the terms of R66's table. -/
def leftOpen (op k : Nat) : Bool :=
  match op with
  | 0x0 => !([0x0E0, 0x0EE].contains k)
  | 0x5 | 0x9 => k % 16 != 0
  | 0x8 => [0x8, 0x9, 0xA, 0xB, 0xC, 0xD, 0xF].contains (k % 16)
  | 0xE => !([0x9E, 0xA1].contains (k % 256))
  | 0xF => !([0x07, 0x0A, 0x15, 0x18, 0x1E, 0x29, 0x33, 0x55, 0x65].contains (k % 256))
  | _ => false

theorem not_recognized_eq_leftOpen {op k : Nat} (hop : op < 16) (hk : k < 4096) :
    (!recognized (BitVec.ofNat 16 (op * 4096 + k))) = leftOpen op k := by
  have hw : (BitVec.ofNat 16 (op * 4096 + k)).toNat = op * 4096 + k := by
    rw [BitVec.toNat_ofNat]; omega
  have hne (c : Word) : BitVec.ofNat 16 (op * 4096 + k) ≠ c ↔ op * 4096 + k ≠ c.toNat := by
    rw [ne_eq, ← BitVec.toNat_inj, hw]
  have h3 : digit (BitVec.ofNat 16 (op * 4096 + k)) 3 = op := by rw [digit, hw]; omega
  have h0 : digit (BitVec.ofNat 16 (op * 4096 + k)) 0 = k % 16 := by rw [digit, hw]; omega
  have hnn : (op * 4096 + k) % 256 = k % 256 := by omega
  rw [Bool.eq_iff_iff, Bool.not_eq_true', not_recognized_iff_digits, h3, h0, hne, hne, hw, hnn]
  clear h3 h0 hne hw hnn
  interval_cases op <;> simp [leftOpen]

theorem countUnrecognized_eq {op : Nat} (hop : op < 16) :
    countUnrecognized op = (List.range 4096).countP (leftOpen op) :=
  List.countP_congr fun k hk => by
    rw [not_recognized_eq_leftOpen hop (List.mem_range.mp hk)]

/-- A count over whole periods. -/
theorem countP_range_mul (p : Nat → Bool) (a b : Nat) :
    (List.range (a * b)).countP (fun k => p (k % b)) = a * (List.range b).countP p := by
  induction a with
  | zero => simp
  | succ a ih =>
    have hlast : (List.range b).countP (fun k => p ((a * b + k) % b)) = (List.range b).countP p :=
      List.countP_congr fun k hk => by
        rw [Nat.mul_add_mod_of_lt (List.mem_range.mp hk)]
    rw [Nat.succ_mul, List.range_add, List.countP_append, List.countP_map, ih, Nat.succ_mul]
    exact congrArg _ hlast

/-- All the numbers below n but those listed. -/
theorem countP_range_not_contains {n : Nat} {l : List Nat} (hl : l.Nodup) (hlt : ∀ k ∈ l, k < n) :
    (List.range n).countP (fun k => !l.contains k) = n - l.length := by
  have hin : (List.range n).countP l.contains = l.length := by
    rw [List.countP_eq_length_filter]
    refine (List.perm_of_nodup_nodup_toFinset_eq (List.nodup_range.filter _) hl ?_).length_eq
    ext k
    simpa using hlt k
  have hall := List.length_eq_countP_add_countP l.contains (l := List.range n)
  rw [List.length_range, hin] at hall
  simp only [Bool.not_eq_true, Bool.decide_eq_false] at hall
  omega

/-- R66's table: of the 16 values of N or the 256 of NN as many as are left open, each with every other
digit; of the words with top digit 0 all but two. -/
theorem countP_leftOpen : (List.range 16).map (fun op => (List.range 4096).countP (leftOpen op)) =
    [4094, 0, 0, 0, 0, 3840, 0, 0, 1792, 3840, 0, 0, 0, 0, 4064, 3952] := by
  have byN (p) := countP_range_mul p 256 16
  have byNN (p) := countP_range_mul p 16 256
  have h0 : (List.range 4096).countP (leftOpen 0x0) = 4094 :=
    countP_range_not_contains (l := [0x0E0, 0x0EE]) (by decide) (by decide)
  have h5 : (List.range 4096).countP (leftOpen 0x5) = 3840 := byN (· != 0)
  have h8 : (List.range 4096).countP (leftOpen 0x8) = 1792 :=
    byN [0x8, 0x9, 0xA, 0xB, 0xC, 0xD, 0xF].contains
  have h9 : (List.range 4096).countP (leftOpen 0x9) = 3840 := h5
  have hE : (List.range 4096).countP (leftOpen 0xE) = 4064 :=
    (byNN fun k => !([0x9E, 0xA1].contains k)).trans
      (congrArg (16 * ·) (countP_range_not_contains (by decide) (by decide)))
  have hF : (List.range 4096).countP (leftOpen 0xF) = 3952 :=
    (byNN fun k => !([0x07, 0x0A, 0x15, 0x18, 0x1E, 0x29, 0x33, 0x55, 0x65].contains k)).trans
      (congrArg (16 * ·) (countP_range_not_contains (by decide) (by decide)))
  have hnone : ∀ op ∈ [0x1, 0x2, 0x3, 0x4, 0x6, 0x7, 0xA, 0xB, 0xC, 0xD],
      (List.range 4096).countP (leftOpen op) = 0 := by
    intro op hop
    refine List.countP_eq_zero.mpr fun k _ => ?_
    fin_cases hop <;> exact Bool.false_ne_true
  have hrange : List.range 16 = [0, 1, 2, 3, 4, 5, 6, 7, 8, 9, 10, 11, 12, 13, 14, 15] := rfl
  simp (disch := decide) only [hrange, List.map_cons, List.map_nil, h0, h5, h8, h9, hE, hF, hnone]

/-- Settles O5: the families by digits, their counts over the lower three digits, and the law
`exec_unrecognized`. -/
theorem unrecognizedWordsAreListedNoOps : Obligations.UnrecognizedWordsAreListedNoOps := by
  refine ⟨fun w => ?_, decodeWord_eq_unrecognized_iff, ?_, rfl, fun w s h => ?_⟩
  · rw [decodeWord_eq_unrecognized_iff, not_recognized_iff_digits]
  · rw [← countP_leftOpen]
    exact List.map_congr_left fun op hop => countUnrecognized_eq (List.mem_range.mp hop)
  · rw [h, exec_unrecognized]

end Sys2Proof.Machine

/-! Faults and frames (60_exceptions.md rules R190, R191; 10_state.md section 1): EXECUTE of an instruction
either raises the one fault its row of R190's table names, or writes no more than its row of the read/write
table allows. -/

namespace Sys2Proof.Machine

/-- R190's table: the fault an instruction raises on a state, `none` where it raises none. -/
def faultOf (i : Instr) (s : State) : FaultCause :=
  match i with
  | .ret => if s.sp.val = 0 then .stackUnderflow else .none
  | .callAddr _ => if s.cfg.stackCapacity.val ≤ s.sp.val then .stackOverflow else .none
  | .skpVx x | .sknpVx x => if 15 < (s.reg x).toNat then .keyIndexFault else .none
  | .ldBVx _ => if 4095 < s.i.toNat + 2 then .dataAddressFault else .none
  | .dumpVx x | .loadVx x => if 4095 < s.i.toNat + x.toNat then .dataAddressFault else .none
  | .drwVxVy _ _ n =>
    if 0 < n.toNat ∧ 4095 < s.i.toNat + n.toNat - 1 then .dataAddressFault else .none
  | _ => .none

/-- The read/write table: what an instruction that raises no fault can make of a state. -/
def WritesOnly (i : Instr) (s t : State) : Prop :=
  match i with
  | .cls => t = { s with px := [], redraw := true }
  | .ret => ∃ sp pc, t = { s with sp := sp, pc := pc }
  | .callAddr _ => ∃ stack sp pc, t = { s with stack := stack, sp := sp, pc := pc }
  | .jpAddr _ | .jpV0Addr _ | .seVxByte _ _ | .sneVxByte _ _ | .seVxVy _ _ | .sneVxVy _ _
  | .skpVx _ | .sknpVx _ => ∃ pc, t = { s with pc := pc }
  | .ldVxByte _ _ | .addVxByte _ _ | .ldVxVy _ _ | .orVxVy _ _ | .andVxVy _ _ | .xorVxVy _ _
  | .addVxVy _ _ | .subVxVy _ _ | .shrVxVy _ _ | .subnVxVy _ _ | .shlVxVy _ _ | .ldVxDT _ =>
    ∃ v, t = { s with v := v }
  | .rndVxByte _ _ => ∃ v, t = { s with v := v, draws := s.draws + 1 }
  | .ldIAddr _ | .addIVx _ | .ldFVx _ => ∃ i, t = { s with i := i }
  | .drwVxVy _ _ _ => ∃ v px, t = { s with v := v, px := px, redraw := true }
  | .ldVxK _ =>
    ∃ v pc kwState kwKey, t = { s with v := v, pc := pc, kwState := kwState, kwKey := kwKey }
  | .ldDTVx _ => ∃ dt, t = { s with dt := dt }
  | .ldSTVx _ => ∃ st, t = { s with st := st }
  | .ldBVx _ => ∃ mem, t = { s with mem := mem }
  | .dumpVx x => ∃ mem, t = { s with mem := mem, i := s.advancedI x }
  | .loadVx x => ∃ v, t = { s with v := v, i := s.advancedI x }
  | .unrecognized _ => t = s

theorem State.resetFlag_eq (s : State) : s.resetFlag = { s with v := s.resetFlag.v } := by
  unfold State.resetFlag; split <;> rfl

theorem State.awaitPress_eq (s : State) :
    s.awaitPress = { s with pc := s.pc - 2, kwState := s.awaitPress.kwState, kwKey := s.awaitPress.kwKey } := by
  unfold State.awaitPress; split <;> rfl

theorem State.awaitRelease_eq (s : State) (x : Nibble) :
    s.awaitRelease x = { s with v := (s.awaitRelease x).v, pc := (s.awaitRelease x).pc,
                                kwState := (s.awaitRelease x).kwState } := by
  unfold State.awaitRelease; split <;> rfl

/-- Said once for every instruction: the fault of R190's table and nothing else, or writes inside the
read/write table. -/
theorem exec_next {i : Instr} {s t : State} (h : exec i s = .next t) :
    (faultOf i s ≠ .none ∧ t = s.faulted (faultOf i s)) ∨ (faultOf i s = .none ∧ WritesOnly i s t) := by
  cases i with
  | ret =>
    rw [exec_ret] at h
    obtain ⟨hsp, -, rfl⟩ | ⟨hsp, rfl⟩ := popThen_next h
    · exact .inr ⟨if_neg (by omega), _, _, rfl⟩
    · simp [faultOf, hsp]
  | callAddr nnn =>
    rw [exec_callAddr] at h
    obtain ⟨hsp, -, rfl⟩ | ⟨hsp, rfl⟩ := pushThen_next h
    · exact .inr ⟨if_neg (by omega), _, _, _, rfl⟩
    · simp [faultOf, hsp]
  | skpVx x | sknpVx x =>
    obtain ⟨hx, rfl⟩ | ⟨hx, rfl⟩ := skipIfKey_next h
    · exact .inr ⟨if_neg (by omega), _, rfl⟩
    · simp [faultOf, hx]
  | ldBVx x | dumpVx x | loadVx x =>
    obtain ⟨hhi, h⟩ | ⟨hhi, rfl⟩ := checkData_next h
    · exact .inr ⟨if_neg (by omega), _, (Host.Outcome.next.inj h).symm⟩
    · simp [faultOf, hhi]
  | drwVxVy x y n =>
    obtain ⟨hn, rfl⟩ | ⟨hn, hhi, rfl⟩ | ⟨hn, hhi, rfl⟩ := execDrwVxVy_next h
    · exact .inr ⟨if_neg (by omega), _, _, rfl⟩
    · exact .inr ⟨if_neg (by omega), _, _, rfl⟩
    · simp [faultOf, hn, hhi]
  | ldVxK x =>
    refine .inr ⟨rfl, ?_⟩
    simp only [exec, execLdVxK] at h
    split at h <;> obtain rfl := Host.Outcome.next.inj h
    · exact ⟨_, _, _, _, s.awaitPress_eq⟩
    · exact ⟨_, _, _, _, s.awaitPress_eq⟩
    · exact ⟨_, _, _, _, s.awaitRelease_eq x⟩
  | seVxByte | sneVxByte | seVxVy | sneVxVy =>
    exact .inr ⟨rfl, _, (Host.Outcome.next.inj ((skipIf_eq _ s).symm.trans h)).symm⟩
  | orVxVy | andVxVy | xorVxVy =>
    obtain rfl := Host.Outcome.next.inj h
    exact .inr ⟨rfl, _, State.resetFlag_eq _⟩
  | cls | unrecognized => exact .inr ⟨rfl, (Host.Outcome.next.inj h).symm⟩
  | jpAddr | jpV0Addr | ldVxByte | addVxByte | ldVxVy | addVxVy | subVxVy | shrVxVy | subnVxVy
  | shlVxVy | ldIAddr | addIVx | ldFVx | rndVxByte | ldVxDT | ldDTVx | ldSTVx =>
    exact .inr ⟨rfl, _, (Host.Outcome.next.inj h).symm⟩

/-- Writes inside the table touch neither the run state nor the fault cause. -/
theorem WritesOnly.runState_faultCause {i : Instr} {s t : State} (h : WritesOnly i s t) :
    t.runState = s.runState ∧ t.faultCause = s.faultCause := by
  cases i with
  | cls | unrecognized => obtain rfl := h; exact ⟨rfl, rfl⟩
  | ret | drwVxVy => obtain ⟨_, _, rfl⟩ := h; exact ⟨rfl, rfl⟩
  | callAddr => obtain ⟨_, _, _, rfl⟩ := h; exact ⟨rfl, rfl⟩
  | ldVxK => obtain ⟨_, _, _, _, rfl⟩ := h; exact ⟨rfl, rfl⟩
  | jpAddr | jpV0Addr | seVxByte | sneVxByte | seVxVy | sneVxVy | skpVx | sknpVx | ldVxByte | addVxByte
  | ldVxVy | orVxVy | andVxVy | xorVxVy | addVxVy | subVxVy | shrVxVy | subnVxVy | shlVxVy | ldVxDT
  | rndVxByte | ldIAddr | addIVx | ldFVx | ldDTVx | ldSTVx | ldBVx | dumpVx | loadVx =>
    obtain ⟨_, rfl⟩ := h; exact ⟨rfl, rfl⟩

/-- On a machine without a fault the fault cause after EXECUTE is the table's. -/
theorem faultCause_of_exec {i : Instr} {s t : State} (h : exec i s = .next t)
    (hs : s.faultCause = .none) : t.faultCause = faultOf i s := by
  obtain ⟨-, rfl⟩ | ⟨hnone, hw⟩ := exec_next h
  · rfl
  · rw [hw.runState_faultCause.2, hs, hnone]

theorem runState_of_exec {i : Instr} {s t : State} (h : exec i s = .next t)
    (hs : s.runState = .running) : t.runState = .running ↔ faultOf i s = .none := by
  obtain ⟨hne, rfl⟩ | ⟨hnone, hw⟩ := exec_next h
  · simp [hne]
  · simp [hw.runState_faultCause.1, hs, hnone]

/-! ### The rows of R190's table -/

theorem faultOf_mem (i : Instr) (s : State) :
    faultOf i s ∈ [.none, .stackOverflow, .stackUnderflow, .dataAddressFault, .keyIndexFault] := by
  cases i <;> simp only [faultOf] <;> (try split) <;> decide

/-- Where a condition decides between one fault and none, a fault is that one, on that condition. -/
theorem ite_faultCause_eq_iff {p : Prop} [Decidable p] {c d : FaultCause} (hd : d ≠ .none) :
    (if p then c else .none) = d ↔ p ∧ c = d := by
  split
  next hp => simp [hp]
  next hp => simp [hp, hd.symm]

theorem faultOf_eq_stackUnderflow_iff (i : Instr) (s : State) :
    faultOf i s = .stackUnderflow ↔ i = .ret ∧ s.sp = 0 := by
  have hsp : s.sp = 0 ↔ s.sp.val = 0 := Fin.ext_iff
  rw [hsp]
  cases i <;> simp [faultOf, ite_faultCause_eq_iff (d := .stackUnderflow)]

theorem faultOf_eq_stackOverflow_iff (i : Instr) (s : State) :
    faultOf i s = .stackOverflow ↔ ∃ nnn, i = .callAddr nnn ∧ s.cfg.stackCapacity.val ≤ s.sp.val := by
  cases i <;> simp [faultOf, ite_faultCause_eq_iff (d := .stackOverflow)]

theorem faultOf_eq_keyIndexFault_iff (i : Instr) (s : State) :
    faultOf i s = .keyIndexFault ↔ ∃ x, (i = .skpVx x ∨ i = .sknpVx x) ∧ 15 < (s.reg x).toNat := by
  cases i <;> simp [faultOf, ite_faultCause_eq_iff (d := .keyIndexFault)]

theorem faultOf_eq_dataAddressFault_iff (i : Instr) (s : State) :
    faultOf i s = .dataAddressFault ↔
      (∃ x, i = .ldBVx x ∧ 4095 < s.i.toNat + 2) ∨
      (∃ x, (i = .dumpVx x ∨ i = .loadVx x) ∧ 4095 < s.i.toNat + x.toNat) ∨
      ∃ x y n, i = .drwVxVy x y n ∧ 0 < n.toNat ∧ 4095 < s.i.toNat + n.toNat - 1 := by
  cases i <;> simp [faultOf, ite_faultCause_eq_iff (d := .dataAddressFault)]

/-- The instructions that have a row in the table. -/
theorem eq_of_faultOf_ne_none {i : Instr} {s : State} (h : faultOf i s ≠ .none) :
    i = .ret ∨ (∃ nnn, i = .callAddr nnn) ∨ (∃ x y n, i = .drwVxVy x y n) ∨
      ∃ x, i = .skpVx x ∨ i = .sknpVx x ∨ i = .ldBVx x ∨ i = .dumpVx x ∨ i = .loadVx x := by
  cases i <;> simp_all [faultOf]

theorem qMemIncr_of_advancedI_ne {s : State} {x : Nibble} (h : s.advancedI x ≠ s.i) :
    s.cfg.qMemIncr = true := by
  by_contra hq
  exact h (if_neg hq)

/-- Settles O18: of the two cases of EXECUTE only the fault leaves Running. -/
theorem faultingInstructionWritesNothing : Obligations.FaultingInstructionWritesNothing := by
  intro i s t hs h ht
  obtain ⟨hne, rfl⟩ | ⟨-, hw⟩ := exec_next h
  · refine ⟨rfl, ?_⟩
    have hmem := faultOf_mem i s
    rwa [List.mem_cons, or_iff_right hne] at hmem
  · rw [hw.runState_faultCause.1, hs] at ht
    cases ht

/-- Settles O19: the fault cause is the table's, row by row. -/
theorem faultsAreExactlyTheListedOnes : Obligations.FaultsAreExactlyTheListedOnes := by
  intro i s hs hc
  obtain ⟨t, h⟩ := exec_completes i s
  have hmem := faultOf_mem i s
  refine ⟨t, h, ?_⟩
  rw [runState_of_exec h hs, faultCause_of_exec h hc]
  refine ⟨faultOf_eq_stackUnderflow_iff i s, faultOf_eq_stackOverflow_iff i s,
    faultOf_eq_keyIndexFault_iff i s, faultOf_eq_dataAddressFault_iff i s, ?_, ?_, Iff.rfl, rfl⟩
  · intro h; simp [h] at hmem
  · intro h; simp [h] at hmem

/-- Settles O24: a fault writes the run state and its cause alone, and everything else is in the
read/write table. -/
theorem instructionsWriteOnlyTheirState : Obligations.InstructionsWriteOnlyTheirState := by
  intro i s t h
  obtain ⟨hkeys, hcfg, hbatch, hrnd, hpending⟩ := exec_keepsSurroundings i s t h
  refine ⟨hkeys, hcfg, hbatch, hrnd, hpending, ?_⟩
  obtain ⟨hne, rfl⟩ | ⟨-, hw⟩ := exec_next h
  · have same {α} {a : α} {p : Prop} : a ≠ a → p := absurd rfl
    have same₂ {α β} {a : α} {b : β} {p : Prop} (h : a ≠ a ∨ b ≠ b) : p := h.elim same same
    exact ⟨same, same₂, same, same, same, same, same₂, same, same, fun _ => eq_of_faultOf_ne_none hne,
      same⟩
  · clear h hkeys hcfg hbatch hrnd hpending
    cases i with
    | cls | unrecognized => obtain rfl := hw; simp
    | ret | drwVxVy => obtain ⟨_, _, rfl⟩ := hw; simp
    | callAddr => obtain ⟨_, _, _, rfl⟩ := hw; simp
    | ldVxK => obtain ⟨_, _, _, _, rfl⟩ := hw; simp
    | jpAddr | jpV0Addr | seVxByte | sneVxByte | seVxVy | sneVxVy | skpVx | sknpVx | ldVxByte | addVxByte
    | ldVxVy | orVxVy | andVxVy | xorVxVy | addVxVy | subVxVy | shrVxVy | subnVxVy | shlVxVy | ldVxDT
    | rndVxByte | ldIAddr | addIVx | ldFVx | ldDTVx | ldSTVx | ldBVx =>
      obtain ⟨_, rfl⟩ := hw; simp
    | dumpVx | loadVx => obtain ⟨_, rfl⟩ := hw; simpa using qMemIncr_of_advancedI_ne

end Sys2Proof.Machine

/-! General registers (10_state.md section 1; 70_reset_and_hazards.md rule R225): which register each
instruction can change, and what the flag writers leave in VF. -/

namespace Sys2Proof.Machine

theorem eq_of_reg_setReg_ne {s : State} {x r : Nibble} {b : Byte}
    (h : (s.setReg x b).reg r ≠ s.reg r) : r = x := by
  by_contra hne
  exact h (by rw [State.reg_setReg, if_neg hne])

theorem eq_of_reg_setReg_setFlag_ne {s : State} {x r : Nibble} {b : Byte} {f : Bool}
    (h : ((s.setReg x b).setFlag f).reg r ≠ s.reg r) : r = x ∨ r = 0xF := by
  by_contra hne
  obtain ⟨hx, hF⟩ := not_or.mp hne
  exact h (by rw [State.reg_setFlag, regF, if_neg hF, State.reg_setReg, if_neg hx])

theorem eq_of_reg_setReg_resetFlag_ne {s : State} {x r : Nibble} {b : Byte}
    (h : (s.setReg x b).resetFlag.reg r ≠ s.reg r) : r = x ∨ r = 0xF ∧ s.cfg.qVfReset = true := by
  by_contra hne
  obtain ⟨hx, hF⟩ := not_or.mp hne
  exact h (by rw [State.reg_resetFlag, if_neg fun h => hF h.symm, State.reg_setReg, if_neg hx])

theorem State.reg_drawn (s : State) (cells : List Nat) (r : Nibble) :
    (s.drawn cells).reg r = if r = 0xF then flagByte (xorCells cells (s.px, false)).2 else s.reg r :=
  State.reg_setFlag _ r _

theorem eq_of_reg_awaitRelease_ne {s : State} {x r : Nibble} (h : (s.awaitRelease x).reg r ≠ s.reg r) :
    r = x := by
  unfold State.awaitRelease at h
  split at h
  · exact absurd rfl h
  · exact eq_of_reg_setReg_ne h

/-- FX0A writes V[X] when its wait ends and no register before. -/
theorem eq_of_reg_execLdVxK_ne {s t : State} {x r : Nibble} (h : exec (.ldVxK x) s = .next t)
    (hr : t.reg r ≠ s.reg r) : r = x := by
  have hpress : s.awaitPress.reg r = s.reg r := by rw [State.reg, State.reg, State.awaitPress_v]
  simp only [exec, execLdVxK] at h
  split at h <;> obtain rfl := Host.Outcome.next.inj h
  · exact absurd hpress hr
  · exact absurd hpress hr
  · exact eq_of_reg_awaitRelease_ne hr

theorem eq_of_reg_execDrwVxVy_ne {s t : State} {x y n r : Nibble} (h : exec (.drwVxVy x y n) s = .next t)
    (hr : t.reg r ≠ s.reg r) : r = 0xF := by
  have hdrawn (cells) (hr : (s.drawn cells).reg r ≠ s.reg r) : r = 0xF := by
    by_contra hne
    exact hr (by rw [State.reg_drawn, if_neg hne])
  obtain ⟨-, rfl⟩ | ⟨-, -, rfl⟩ | ⟨-, -, rfl⟩ := execDrwVxVy_next h
  · exact hdrawn _ hr
  · exact hdrawn _ hr
  · exact absurd rfl hr

theorem le_of_reg_execLoadVx_ne {s t : State} {x r : Nibble} (h : exec (.loadVx x) s = .next t)
    (hr : t.reg r ≠ s.reg r) : r.toNat ≤ x.toNat := by
  by_contra hle
  obtain ⟨-, h⟩ | ⟨-, rfl⟩ := checkData_next h
  · obtain rfl := Host.Outcome.next.inj h
    exact hr ((State.reg_loadRegs s x r _).trans (if_neg hle))
  · exact hr rfl

/-- Settles O25: what the read/write table leaves out keeps its register file, and the others change the
registers their last writes name. -/
theorem registersChangeOnlyAsDestination : Obligations.RegistersChangeOnlyAsDestination := by
  intro i s t r h hr
  obtain ⟨-, rfl⟩ | ⟨-, hw⟩ := exec_next h
  · exact absurd rfl hr
  cases i with
  | cls | unrecognized => obtain rfl := hw; exact absurd rfl hr
  | ret => obtain ⟨_, _, rfl⟩ := hw; exact absurd rfl hr
  | callAddr => obtain ⟨_, _, _, rfl⟩ := hw; exact absurd rfl hr
  | jpAddr | jpV0Addr | seVxByte | sneVxByte | seVxVy | sneVxVy | skpVx | sknpVx | ldIAddr | addIVx
  | ldFVx | ldDTVx | ldSTVx | ldBVx | dumpVx => obtain ⟨_, rfl⟩ := hw; exact absurd rfl hr
  | ldVxByte | addVxByte | ldVxVy | ldVxDT | rndVxByte =>
    obtain rfl := Host.Outcome.next.inj h
    obtain rfl := eq_of_reg_setReg_ne hr
    simp
  | orVxVy | andVxVy | xorVxVy =>
    obtain rfl := Host.Outcome.next.inj h
    simpa using eq_of_reg_setReg_resetFlag_ne hr
  | addVxVy | subVxVy | shrVxVy | subnVxVy | shlVxVy =>
    obtain rfl := Host.Outcome.next.inj h
    simpa using eq_of_reg_setReg_setFlag_ne hr
  | ldVxK x => obtain rfl := eq_of_reg_execLdVxK_ne h hr; simp
  | drwVxVy x y n => obtain rfl := eq_of_reg_execDrwVxVy_ne h hr; simp
  | loadVx x => simpa using le_of_reg_execLoadVx_ne h hr

/-! ### VF after a flag writer (R225) -/

theorem flagByte_eq_zero_or_one (b : Bool) : flagByte b = 0 ∨ flagByte b = 1 := by
  cases b <;> simp [flagByte]

theorem State.reg_setFlag_F (s : State) (b : Bool) : (s.setFlag b).reg 0xF = flagByte b :=
  (s.reg_setFlag 0xF b).trans (if_pos rfl)

/-- A draw that does not fault leaves the collision flag in VF. -/
theorem reg_F_of_execDrwVxVy {s t : State} {x y n : Nibble} (h : exec (.drwVxVy x y n) s = .next t)
    (ht : t.runState = .running) : ∃ b, t.reg 0xF = flagByte b := by
  obtain ⟨-, rfl⟩ | ⟨-, -, rfl⟩ | ⟨-, -, rfl⟩ := execDrwVxVy_next h
  · exact ⟨_, State.reg_setFlag_F _ _⟩
  · exact ⟨_, State.reg_setFlag_F _ _⟩
  · cases ht

theorem State.reg_resetFlag_F {s : State} (hq : s.cfg.qVfReset = true) : s.resetFlag.reg 0xF = 0 :=
  (s.reg_resetFlag 0xF).trans (if_pos ⟨hq, rfl⟩)

/-- Settles O26: the flag is written last, so VF holds it whatever X is. -/
theorem flagWritesClobberVF : Obligations.FlagWritesClobberVF := by
  intro s t x y n i h
  refine ⟨fun hi => ?_, fun hi _ ht => ?_, fun hi hq => ?_⟩
  · have hflag : ∃ u b, t = State.setFlag u b := by
      fin_cases hi <;> exact ⟨_, _, (Host.Outcome.next.inj h).symm⟩
    obtain ⟨u, b, rfl⟩ := hflag
    rw [State.reg_setFlag_F]
    exact flagByte_eq_zero_or_one b
  · subst hi
    obtain ⟨b, hb⟩ := reg_F_of_execDrwVxVy h ht
    rw [hb]
    exact flagByte_eq_zero_or_one b
  · have hreset : ∃ b, t = (s.setReg x b).resetFlag := by
      fin_cases hi <;> exact ⟨_, (Host.Outcome.next.inj h).symm⟩
    obtain ⟨b, rfl⟩ := hreset
    exact State.reg_resetFlag_F hq

end Sys2Proof.Machine

/-! The invariant (10_state.md rules R13, R14, R18, R20, R26): EXECUTE keeps each part of it, by what the
instructions that may write that part make of it, and so does every event. -/

namespace Sys2Proof

/-- The bounds of an admitted configuration (R3, R4). -/
theorem Config.bounds_of_wf {c : Config} (h : c.wf = true) :
    12 ≤ c.stackCapacity.val ∧ 8 ≤ c.displayW ∧ 1 ≤ c.displayH := by
  simpa [Config.wf, and_assoc] using h

end Sys2Proof

namespace Sys2Proof.Machine

/-! ### What EXECUTE keeps -/

@[simp] theorem length_decimalDigits (b : Byte) : (decimalDigits b).length = 3 := rfl

@[simp] theorem State.length_regsUpTo (s : State) (x : Nibble) : (s.regsUpTo x).length = x.toNat + 1 := by
  rw [State.regsUpTo, List.length_take, Vector.length_toList]
  have := x.isLt
  omega

/-- A checked store stays inside the address space. -/
theorem exec_keepsMemory {i : Instr} {s t : State} (h : exec i s = .next t)
    (hm : Memory.wf s.mem = true) : Memory.wf t.mem = true := by
  obtain ⟨-, -, -, -, -, hwrite, -⟩ := instructionsWriteOnlyTheirState i s t h
  by_cases hsame : t.mem = s.mem
  · rwa [hsame]
  obtain ⟨x, rfl | rfl⟩ := hwrite hsame
  all_goals
    obtain ⟨hhi, h⟩ | ⟨-, rfl⟩ := checkData_next h
    · obtain rfl := Host.Outcome.next.inj h
      exact Memory.wf_writeBytes hm (by simp; omega)
    · exact hm

theorem State.drawnCells_lt {s : State} (hc : s.cfg.wf = true) (x y n : Nibble) :
    ∀ c ∈ s.drawnCells x y n, c < s.cfg.displayW * s.cfg.displayH := by
  intro _ hmem
  obtain ⟨-, hw, hh⟩ := Config.bounds_of_wf hc
  exact spriteCells_lt (by omega) hh hmem

/-- A sprite falls only on cells of the grid. -/
theorem exec_keepsPixels {i : Instr} {s t : State} (h : exec i s = .next t) (hc : s.cfg.wf = true)
    (hp : pxWfFrom 0 (s.cfg.displayW * s.cfg.displayH) s.px = true) :
    pxWfFrom 0 (t.cfg.displayW * t.cfg.displayH) t.px = true := by
  obtain ⟨-, hcfg, -, -, -, -, hwrite, -⟩ := instructionsWriteOnlyTheirState i s t h
  rw [hcfg]
  by_cases hsame : t.px = s.px
  · rwa [hsame]
  obtain rfl | ⟨x, y, n, rfl⟩ := hwrite (.inl hsame)
  · obtain rfl := Host.Outcome.next.inj h
    rfl
  · obtain ⟨-, rfl⟩ | ⟨-, -, rfl⟩ | ⟨-, -, rfl⟩ := execDrwVxVy_next h
    · exact hp
    · exact pxWfFrom_xorCells hp (State.drawnCells_lt hc x y n)
    · exact hp

/-- A push needs room and a pop only takes away. -/
theorem exec_keepsDepth {i : Instr} {s t : State} (h : exec i s = .next t)
    (hs : s.sp.val ≤ s.cfg.stackCapacity.val) : t.sp.val ≤ t.cfg.stackCapacity.val := by
  obtain ⟨-, hcfg, -, -, -, -, -, -, hwrite, -⟩ := instructionsWriteOnlyTheirState i s t h
  rw [hcfg]
  by_cases hsame : t.sp = s.sp
  · rwa [hsame]
  obtain rfl | ⟨nnn, rfl⟩ := hwrite hsame
  · rw [exec_ret] at h
    obtain ⟨hpos, -, rfl⟩ | ⟨-, rfl⟩ := popThen_next h
    · exact (Nat.sub_le _ _).trans hs
    · exact hs
  · rw [exec_callAddr] at h
    obtain ⟨hroom, -, rfl⟩ | ⟨-, rfl⟩ := pushThen_next h
    · exact hroom
    · exact hs

/-- What EXECUTE can do to the stack's storage: nothing, or a push below the capacity. -/
theorem exec_stack {i : Instr} {s t : State} (h : exec i s = .next t) :
    t.stack = s.stack ∨
      ∃ hsp : s.sp.val < 16, s.sp.val < s.cfg.stackCapacity.val ∧
        t.stack = s.stack.set s.sp.val s.pc hsp := by
  obtain ⟨-, -, -, -, -, -, -, hwrite, -⟩ := instructionsWriteOnlyTheirState i s t h
  by_cases hsame : t.stack = s.stack
  · exact .inl hsame
  obtain ⟨nnn, rfl⟩ := hwrite hsame
  rw [exec_callAddr] at h
  obtain ⟨hroom, hsp, rfl⟩ | ⟨-, rfl⟩ := pushThen_next h
  · exact .inr ⟨hsp, hroom, rfl⟩
  · exact .inl rfl

theorem exec_keepsSpare {i : Instr} {s t : State} (h : exec i s = .next t)
    (hs : ∀ j : Fin 16, s.cfg.stackCapacity.val ≤ j.val → s.stack[j] = 0) :
    ∀ j : Fin 16, t.cfg.stackCapacity.val ≤ j.val → t.stack[j] = 0 := by
  intro j hj
  rw [(exec_keepsSurroundings i s t h).cfg] at hj
  obtain heq | ⟨hsp, hroom, heq⟩ := exec_stack h
  · rw [heq]; exact hs j hj
  · have hne : s.sp.val ≠ j.val := by omega
    simpa [heq, Vector.getElem_set_ne, hne] using hs j hj

theorem exec_keepsReturns {i : Instr} {s t : State} (h : exec i s = .next t)
    (hpc : s.pc.toNat ≤ 0x1000) (hs : ∀ j : Fin 16, s.stack[j].toNat ≤ 0x1000) :
    ∀ j : Fin 16, t.stack[j].toNat ≤ 0x1000 := by
  intro j
  obtain heq | ⟨hsp, -, heq⟩ := exec_stack h
  · rw [heq]; exact hs j
  · by_cases hj : s.sp.val = j.val
    · simpa [heq, ← hj] using hpc
    · simpa [heq, Vector.getElem_set_ne, hj] using hs j

/-- While its wait lasts, FX0A puts pc back on itself. -/
theorem pc_of_execLdVxK {s t : State} {x : Nibble} (h : exec (.ldVxK x) s = .next t) :
    (t.kwState = .idle ∧ t.pc = s.pc) ∨ t.pc = s.pc - 2 := by
  have hpress : s.awaitPress.pc = s.pc - 2 := by rw [State.awaitPress_eq]
  simp only [exec, execLdVxK] at h
  split at h <;> obtain rfl := Host.Outcome.next.inj h
  · exact .inr hpress
  · exact .inr hpress
  · unfold State.awaitRelease
    split
    · exact .inr rfl
    · exact .inl ⟨rfl, rfl⟩

theorem toNat_addrWord (nnn : Addr) : (addrWord nnn).toNat = nnn.toNat :=
  BitVec.toNat_setWidth_of_le (by decide)

theorem toNat_addrWord_add_byteWord (nnn : Addr) (b : Byte) :
    (addrWord nnn + byteWord b).toNat = nnn.toNat + b.toNat := by
  rw [addrWord_add_byteWord, BitVec.toNat_ofNat]
  omega

/-- A skip moves on by one instruction at most. -/
theorem toNat_ite_add_two_le {p : Prop} [Decidable p] {pc : Word} (h : pc.toNat ≤ 0x1000) :
    (if p then pc + 2 else pc).toNat ≤ 0x10FE := by
  split
  · rw [BitVec.toNat_add]; simp; omega
  · omega

theorem pc_of_skipIf {c : Bool} {s t : State} (h : skipIf c s = .next t) (hpc : s.pc.toNat ≤ 0x1000) :
    t.pc.toNat ≤ 0x10FE := by
  rw [skipIf_eq] at h
  obtain rfl := Host.Outcome.next.inj h
  exact toNat_ite_add_two_le hpc

/-- Every target of a jump, a call or a return, every skip and a parked FX0A stay in R13's range. -/
theorem exec_pcBound {i : Instr} {s t : State} (h : exec i s = .next t) (h2 : 2 ≤ s.pc.toNat)
    (hpc : s.pc.toNat ≤ 0x1000) (hs : ∀ j : Fin 16, s.stack[j].toNat ≤ 0x1000) :
    t.pc.toNat ≤ 0x10FE := by
  obtain ⟨-, -, -, -, -, -, -, -, -, -, -, -, -, hwrite, -⟩ := instructionsWriteOnlyTheirState i s t h
  have hkept : s.pc.toNat ≤ 0x10FE := by omega
  by_cases hsame : t.pc = s.pc
  · rwa [hsame]
  obtain rfl | ⟨nnn, rfl | rfl | rfl⟩ | ⟨x, nn, rfl | rfl⟩ | ⟨x, y, rfl | rfl⟩ | ⟨x, rfl | rfl | rfl⟩ :=
    hwrite hsame
  · rw [exec_ret] at h
    obtain ⟨hpos, hsp, rfl⟩ | ⟨-, rfl⟩ := popThen_next h
    · exact (hs ⟨s.sp.val - 1, hsp⟩).trans (by decide)
    · exact hkept
  · obtain rfl := Host.Outcome.next.inj h
    have := nnn.isLt
    simp only [toNat_addrWord]
    omega
  · rw [exec_callAddr] at h
    obtain ⟨-, -, rfl⟩ | ⟨-, rfl⟩ := pushThen_next h
    · have := nnn.isLt
      simp only [toNat_addrWord]
      omega
    · exact hkept
  · obtain rfl := Host.Outcome.next.inj h
    have := nnn.isLt
    simp only [toNat_addrWord_add_byteWord]
    omega
  · exact pc_of_skipIf h hpc
  · exact pc_of_skipIf h hpc
  · exact pc_of_skipIf h hpc
  · exact pc_of_skipIf h hpc
  · obtain ⟨-, rfl⟩ | ⟨-, rfl⟩ := skipIfKey_next h
    · exact toNat_ite_add_two_le hpc
    · exact hkept
  · obtain ⟨-, rfl⟩ | ⟨-, rfl⟩ := skipIfKey_next h
    · exact toNat_ite_add_two_le hpc
    · exact hkept
  · obtain ⟨-, heq⟩ | heq := pc_of_execLdVxK h
    · rwa [heq]
    · rw [heq, BitVec.toNat_sub_of_le h2]
      exact (Nat.sub_le _ _).trans hkept

theorem exec_keepsCause {i : Instr} {s t : State} (h : exec i s = .next t)
    (hs : s.runState = .running ↔ s.faultCause = .none) :
    t.runState = .running ↔ t.faultCause = .none := by
  obtain ⟨hne, rfl⟩ | ⟨-, hw⟩ := exec_next h
  · simp [hne]
  · rw [hw.runState_faultCause.1, hw.runState_faultCause.2, hs]

/-! ### The invariant along the events -/

/-- The invariant looks at no register, no timer, not at the keypad latch and not at the model's record. -/
theorem State.Inv.of_eq {s t : State} (hs : s.Inv)
    (h : t = { s with v := t.v, i := t.i, dt := t.dt, st := t.st, keys := t.keys, redraw := t.redraw,
                      kwKey := t.kwKey, batch := t.batch, rndIn := t.rndIn, draws := t.draws,
                      pending := t.pending }) : t.Inv := by
  rw [h]
  exact ⟨hs.memory, hs.pixels, hs.config, hs.depth, hs.spare, hs.returns, hs.pcBound, hs.cause,
    hs.parked⟩

theorem State.Inv.faulted {s : State} (hs : s.Inv) {c : FaultCause} (hc : c ≠ .none) :
    (s.faulted c).Inv :=
  ⟨hs.memory, hs.pixels, hs.config, hs.depth, hs.spare, hs.returns, hs.pcBound, by simp [hc],
    hs.parked⟩

/-- A fetched word lies at an address up to 4094 (R44). -/
theorem toNat_le_of_fetch16 {m : Memory} {a w : Word} (h : Memory.fetch16 m a = some w) :
    a.toNat ≤ 4094 := by
  by_contra hle
  rw [Memory.fetch16, if_neg hle] at h
  cases h

/-- A wait in progress after EXECUTE is that of the FX0A just fetched, parked on its own address. -/
theorem exec_keepsParked {s t : State} {w : Word} (hs : s.Inv)
    (hw : Memory.fetch16 s.mem s.pc = some w) (h : exec (decodeWord w) s.advancePc = .next t)
    (hwait : t.kwState ≠ .idle) : ∃ x, (Memory.fetch16 t.mem t.pc).map decodeWord = some (.ldVxK x) := by
  obtain ⟨-, -, -, -, -, hmem, -, -, -, -, -, hkw, -⟩ := instructionsWriteOnlyTheirState _ _ t h
  have hfetched : ∃ x, decodeWord w = .ldVxK x := by
    by_cases hidle : s.kwState = .idle
    · exact hkw (.inl fun hsame => hwait (hsame.trans hidle))
    · obtain ⟨x, hx⟩ := hs.parked hidle
      rw [hw, Option.map_some] at hx
      exact ⟨x, Option.some.inj hx⟩
  obtain ⟨x, hx⟩ := hfetched
  rw [hx] at h hmem
  have hmem : t.mem = s.mem := by
    by_contra hne
    obtain ⟨_, h | h⟩ := hmem hne <;> cases h
  have hpc : t.pc = s.pc := by
    obtain ⟨hidle, -⟩ | hpc := pc_of_execLdVxK h
    · exact absurd hidle hwait
    · rw [hpc, State.advancePc_pc, BitVec.add_sub_cancel]
  exact ⟨x, by rw [hmem, hpc, hw, ← hx]; rfl⟩

/-- EXECUTE of the fetched word keeps the invariant. -/
theorem exec_keepsInv {s t : State} {w : Word} (hs : s.Inv) (hw : Memory.fetch16 s.mem s.pc = some w)
    (h : exec (decodeWord w) s.advancePc = .next t) : t.Inv := by
  have hle := toNat_le_of_fetch16 hw
  have hpc : s.advancePc.pc.toNat = s.pc.toNat + 2 := by
    rw [State.advancePc_pc, BitVec.toNat_add]; simp; omega
  exact ⟨exec_keepsMemory h hs.memory, exec_keepsPixels h hs.config hs.pixels,
    (exec_keepsSurroundings _ _ t h).cfg ▸ hs.config, exec_keepsDepth h hs.depth,
    exec_keepsSpare h hs.spare, exec_keepsReturns h (by omega) hs.returns,
    exec_pcBound h (by omega) (by omega) hs.returns, exec_keepsCause h hs.cause,
    exec_keepsParked hs hw h⟩

theorem instrCycle_keepsInv {r : Option Byte} {s t : State} (hs : s.Inv)
    (h : instrCycle r s = .next t) : t.Inv := by
  have hbegun : (s.beginCycle r).Inv := hs.of_eq rfl
  obtain ⟨w, hw, h⟩ | ⟨-, rfl⟩ := instrCycle_next h
  · exact exec_keepsInv hbegun hw h
  · exact hbegun.faulted (by decide)

/-- Reset establishes the invariant, whatever the state before, with a ROM of any length. -/
theorem resetWith_inv {cfg : Config} (rom : List Byte) (s : State) (hcfg : cfg.wf = true) :
    (resetWith cfg rom s).Inv := by
  have hmem := wf_resetWith_mem cfg rom s
  rw [resetWith_eq]
  refine ⟨hmem, rfl, hcfg, Nat.zero_le _, fun j _ => ?_, fun j => ?_,
    (by decide : entryPoint.toNat ≤ 0x10FE), ?_, fun h => absurd rfl h⟩
  · exact Vector.getElem_replicate _
  · exact (congrArg BitVec.toNat (Vector.getElem_replicate _)).trans_le (Nat.zero_le _)
  · by_cases h : rom.length ≤ 3584 <;> simp [h]

theorem deliver_keepsInv {e : Event} {s t : State} (hs : s.Inv) (h : deliver e s = .next t) : t.Inv := by
  obtain ⟨r, -, -, h⟩ | ⟨-, -, rfl⟩ | ⟨k, b, -, rfl⟩ | ⟨-, rfl⟩ | ⟨cfg, rom, -, hcfg, rfl⟩ | ⟨-, -, rfl⟩ :=
    deliver_next h
  · exact instrCycle_keepsInv hs h
  · exact hs.of_eq rfl
  · exact hs.of_eq rfl
  · exact hs.of_eq rfl
  · exact resetWith_inv rom s hcfg
  · exact hs

/-- Settles O21: a step delivers a pending event or one of the schedule, and each keeps the invariant. -/
theorem stepKeepsInvariant : Obligations.StepKeepsInvariant := by
  intro s t hs h
  obtain ⟨e, rest, -, h⟩ | ⟨-, -, -, h⟩ | ⟨-, -, -, rfl⟩ := step_next h
  · exact deliver_keepsInv (s := { s with pending := rest }) (hs.of_eq rfl) h
  · exact instrCycle_keepsInv hs h
  · exact hs.of_eq rfl

end Sys2Proof.Machine

/-! Reset state and oversized ROMs (70_reset_and_hazards.md rules R221, R223), timers under ticks and the
fault state (60_exceptions.md rules R192, R198, R199, R202). -/

namespace Sys2Proof.Machine

/-! ### Reset -/

/-- Settles O15: the two cases of the ROM's length, with the memory law of Reset at 0x200 and above. -/
theorem resetRejectsOversizedRom : Obligations.ResetRejectsOversizedRom := by
  intro s cfg rom rest hp hcfg
  refine ⟨resetWith cfg rom { s with pending := rest }, ?_, ?_, fun hlt => ?_, fun hle => ?_⟩
  · rw [step_pending hp, deliver_reset rom _ hcfg]
  · rw [resetWith_eq]
  · have hread : ∀ j, j < 3584 →
        Memory.read (resetWith cfg rom { s with pending := rest }).mem (0x200 + j) = 0 := by
      intro j _
      rw [read_resetWith_mem, dif_neg (by omega), if_neg (by omega)]
    rw [resetWith_of_lt _ _ hlt] at hread ⊢
    exact ⟨rfl, rfl, rfl, rfl, hread, fun rnd => deliver_instrCycle_fault rnd rfl⟩
  · refine ⟨?_, ?_, fun j hj => ?_⟩
    · rw [resetWith_of_le _ _ hle]; rfl
    · rw [resetWith_of_le _ _ hle]; rfl
    · rw [read_resetWith_mem, dif_neg (by omega), if_pos (by omega), Nat.add_sub_cancel_left]

/-- With the conventional font the list of a cleared memory is empty. -/
theorem fontMemory_bootConfig : fontMemory bootConfig = [] := by decide

/-- State.reset is what a Reset with `bootConfig` and an empty ROM answers. -/
theorem resetWith_bootConfig : resetWith bootConfig [] State.reset = State.reset := by
  rw [resetWith_of_le _ _ (Nat.zero_le _), Memory.writeBytes, fontMemory_bootConfig]
  rfl

/-- The reset memory: the font and then zeros. -/
theorem read_reset_mem (a : Nat) :
    Memory.read State.reset.mem a = if h : a < 80 then State.reset.cfg.font[a] else 0 :=
  (congrArg (Memory.read · a) fontMemory_bootConfig.symm).trans (read_fontMemory bootConfig a)

/-- Settles O16: every field by the definition of State.reset, memory by the law of the font memory. -/
theorem resetStateHasTheListedValues : Obligations.ResetStateHasTheListedValues := by
  have hreg (x) : State.reset.reg x = 0 := Vector.getElem_replicate _
  have hstack (j : Fin 16) : State.reset.stack[j] = 0 := Vector.getElem_replicate _
  have hkey (k) : State.reset.key k = false := Vector.getElem_replicate _
  have hfont (j : Fin 80) : Memory.read State.reset.mem j.val = State.reset.cfg.font[j] :=
    (read_reset_mem j.val).trans (dif_pos j.isLt)
  have hzero (a) (h : 80 ≤ a) (_ : a < 4096) : Memory.read State.reset.mem a = 0 :=
    (read_reset_mem a).trans (dif_neg (Nat.not_lt.mpr h))
  exact ⟨hreg, rfl, rfl, rfl, hstack, rfl, rfl, rfl, hkey, State.pixel_of_px_nil rfl, rfl, rfl, rfl, rfl,
    rfl, hfont, hzero, rfl, rfl, rfl, resetWith_bootConfig⟩

/-- Settles O20: State.reset is a state a Reset answers. -/
theorem invariantHoldsAtReset : Obligations.InvariantHoldsAtReset := by
  have hinv : (resetWith bootConfig [] State.reset).Inv := resetWith_inv [] State.reset (by decide)
  rwa [resetWith_bootConfig] at hinv

/-! ### Ticks -/

/-- Settles O11: each timer counts down alone; pc and the key wait ride along. -/
theorem timersCountDownUnderTicks : Obligations.TimersCountDownUnderTicks := by
  intro s n
  have hst : (tick^[n] s).st.toNat = s.st.toNat - n := by
    rw [st_tick_iterate, toNat_countDown_iterate]
  refine ⟨?_, hst, ?_, ?_, ?_⟩
  · rw [dt_tick_iterate, toNat_countDown_iterate]
  · rw [State.tone_iff, hst]
    omega
  · exact (Function.Semiconj.iterate_right (f := State.pc) (gb := id) tick_pc n s).trans
      (by rw [Function.iterate_id]; rfl)
  · exact (Function.Semiconj.iterate_right (f := State.kwState) (gb := id) tick_kwState n s).trans
      (by rw [Function.iterate_id]; rfl)

/-! ### The fault state -/

/-- Settles O17: in Fault the enabled events are KeyWrite, RedrawAck and Reset. -/
theorem faultStateIsTerminal : Obligations.FaultStateIsTerminal := by
  intro s hs
  refine ⟨fun t h hreset => ?_, fun rnd rest hp => ?_, fun rest hp => ?_, fun hp => step_stuck hp hs⟩
  · obtain ⟨e, rest, hp, h⟩ | ⟨-, hrun, -⟩ | ⟨-, hrun, -⟩ := step_next h
    · obtain ⟨_, -, hrun, -⟩ | ⟨-, hrun, -⟩ | ⟨_, _, -, rfl⟩ | ⟨-, rfl⟩ | ⟨cfg, rom, rfl, -⟩ | ⟨-, -, rfl⟩ :=
        deliver_next h
      · exact absurd (hs.symm.trans hrun) (by decide)
      · exact absurd (hs.symm.trans hrun) (by decide)
      · rfl
      · rfl
      · exact absurd (by rw [hp]; rfl) (hreset cfg rom)
      · rfl
    · exact absurd (hs.symm.trans hrun) (by decide)
    · exact absurd (hs.symm.trans hrun) (by decide)
  · rw [step_pending hp, deliver_instrCycle_fault (s := { s with pending := rest }) rnd hs]
  · rw [step_pending hp, deliver_tick_fault (s := { s with pending := rest }) hs]

/-! ### The batch (R201, R202) -/

theorem runSteps_succ_next {k : Nat} {s t : State} (h : runSteps (k + 1) s = .next t) :
    ∃ u, step s = .next u ∧ runSteps k u = .next t := by
  unfold runSteps at h
  split at h
  next u hu => exact ⟨u, hu, h⟩
  next hstop => exact absurd h (hstop t)

/-- With no event pending, a run that ends Running started so: in Fault it could not have moved. -/
theorem running_of_runSteps {k : Nat} {s t : State} (hp : s.pending = [])
    (h : runSteps k s = .next t) (ht : t.runState = .running) : s.runState = .running := by
  by_contra hne
  have hs : s.runState = .fault := by
    cases hr : s.runState with
    | running => exact absurd hr hne
    | fault => rfl
  cases k with
  | zero => exact hne (Host.Outcome.next.inj h ▸ ht)
  | succ k =>
    obtain ⟨u, hu, -⟩ := runSteps_succ_next h
    rw [step_stuck hp hs] at hu
    cases hu

/-- Inside a batch every step is an instruction cycle and is counted. -/
theorem batch_of_runSteps {k : Nat} {s t : State} (hp : s.pending = [])
    (hk : s.batch + k ≤ s.cfg.cyclesPerTick) (h : runSteps k s = .next t) (ht : t.runState = .running) :
    t.batch = s.batch + k ∧ t.pending = [] ∧ t.cfg = s.cfg := by
  induction k generalizing s with
  | zero =>
    obtain rfl := Host.Outcome.next.inj h
    exact ⟨rfl, hp, rfl⟩
  | succ k ih =>
    have hs := running_of_runSteps hp h ht
    obtain ⟨u, hu, h⟩ := runSteps_succ_next h
    rw [step_batch hp hs (by omega)] at hu
    obtain ⟨-, hcfg, hbatch, -, hpending⟩ := instrCycle_sameSurroundings hu
    simp only [State.beginCycle_cfg, State.beginCycle_batch, State.beginCycle_pending] at hcfg hbatch hpending
    obtain ⟨h1, h2, h3⟩ := ih (hpending.trans hp) (by rw [hbatch, hcfg]; omega) h
    exact ⟨by omega, h2, h3.trans hcfg⟩

/-- Settles O9: after k counted cycles the schedule's choice is made by k against K. -/
theorem batchRunsKCyclesThenTicks : Obligations.BatchRunsKCyclesThenTicks := by
  intro s t k _ hp hb hk h ht
  obtain ⟨hbatch, hpending, hcfg⟩ := batch_of_runSteps hp (by rw [hb, Nat.zero_add]; exact hk) h ht
  rw [hb, Nat.zero_add] at hbatch
  have hK : t.cfg.cyclesPerTick = s.cfg.ips / 60 := by rw [hcfg]; rfl
  refine ⟨hbatch, hpending, hcfg, fun hlt => ?_, fun heq => ⟨?_, rfl⟩, fun hips => ?_⟩
  · exact step_batch hpending ht (by omega)
  · exact step_tick hpending ht (by omega)
  · obtain rfl : k = 0 := by omega
    exact ⟨(Host.Outcome.next.inj h).symm, step_tick hpending ht (by omega)⟩

end Sys2Proof.Machine

/-! FETCH and the step (40_instruction_cycle.md rules R80, R82), and memory as the canonical list that it is
(20_memory.md rules R43, R44, R55). -/

namespace Sys2Proof.Machine

/-! ### FETCH -/

theorem fetch16_of_le {m : Memory} {a : Word} (h : a.toNat ≤ 4094) :
    Memory.fetch16 m a = some (wordOfBytes (Memory.read m a.toNat) (Memory.read m (a.toNat + 1))) :=
  if_pos h

theorem fetch16_of_lt {m : Memory} {a : Word} (h : 4094 < a.toNat) : Memory.fetch16 m a = none :=
  if_neg (Nat.not_le.mpr h)

/-- Settles O6, by the two cases of the bounds test. -/
theorem fetchReadsBigEndianAndAdvances : Obligations.FetchReadsBigEndianAndAdvances := by
  intro s rnd
  refine ⟨fun h => ?_, fun h => ?_⟩
  · exact instrCycle_fetch rnd (fetch16_of_le h)
  · exact instrCycle_out rnd (fetch16_of_lt h)

/-- A cycle runs the instruction that the two bytes at pc decode to. -/
theorem instrCycle_of_decodeBytes {s : State} {i : Instr} (rnd : Option Byte) (hpc : s.pc.toNat ≤ 4094)
    (h : decodeBytes [Memory.read s.mem s.pc.toNat, Memory.read s.mem (s.pc.toNat + 1)] = .ok (i, [])) :
    instrCycle rnd s = exec i (s.beginCycle rnd).advancePc := by
  have hword : decodeWord (wordOfBytes (Memory.read s.mem s.pc.toNat)
      (Memory.read s.mem (s.pc.toNat + 1))) = i := congrArg Prod.fst (Except.ok.inj h)
  rw [instrCycle_fetch rnd (fetch16_of_le hpc), hword]

/-- Settles O7: a cycle of the schedule and a delivered one run the same instruction. -/
theorem stepRunsDecodedInstruction : Obligations.StepRunsDecodedInstruction := by
  intro s i hs hpc h
  refine ⟨fun hp hb => ?_, fun rnd rest hp => ?_⟩
  · rw [step_batch hp hs hb]
    exact instrCycle_of_decodeBytes none hpc h
  · rw [step_pending hp, deliver_instrCycle (s := { s with pending := rest }) rnd hs]
    exact instrCycle_of_decodeBytes (s := { s with pending := rest }) rnd hpc h

/-- A word written with its high byte first is read back as its two bytes. -/
theorem read_writeBytes_bytesOfWord {m : Memory} {a : Nat} (w : Word) (hm : Memory.wf m = true)
    (ha : a ≤ 4094) :
    [Memory.read (Memory.writeBytes m a (bytesOfWord w)) a,
      Memory.read (Memory.writeBytes m a (bytesOfWord w)) (a + 1)] = bytesOfWord w := by
  have hlen : (bytesOfWord w).length = 2 := rfl
  rw [Memory.read_writeBytes _ hm (by omega), Memory.read_writeBytes _ hm (by omega), hlen,
    if_pos (by omega), if_pos (by omega), Nat.sub_self, Nat.add_sub_cancel_left]
  rfl

theorem decodeTableWord_eq {w : Nat} (hw : w < 65536) :
    decodeTableWord 16 w = some (decodeWord (BitVec.ofNat 16 w)) := by
  have hdecode := decodeBytes_bytesOfWord (BitVec.ofNat 16 w) []
  rw [List.append_nil] at hdecode
  have hmod : w % 2 ^ 16 = w := Nat.mod_eq_of_lt hw
  rw [decodeTableWord, hmod, hdecode]

/-- Settles O8: the placed bytes are the ones the pending cycle fetches. -/
theorem placedWordRunsNext : Obligations.PlacedWordRunsNext := by
  intro s w hs hpc hm hw
  refine ⟨decodeTableWord_eq hw, ?_⟩
  have hmem : (s.withFetchWord 16 w).mem =
      Memory.writeBytes s.mem s.pc.toNat (bytesOfWord (BitVec.ofNat 16 w)) := by
    have hmod : w % 2 ^ 16 = w := Nat.mod_eq_of_lt hw
    rw [State.withFetchWord, placeWord, hmod]
    exact if_pos hpc
  have hfetch : decodeBytes [Memory.read (s.withFetchWord 16 w).mem s.pc.toNat,
      Memory.read (s.withFetchWord 16 w).mem (s.pc.toNat + 1)] =
      .ok (decodeWord (BitVec.ofNat 16 w), []) := by
    rw [hmem, read_writeBytes_bytesOfWord _ hm hpc]
    exact decodeBytes_bytesOfWord _ []
  exact (stepRunsDecodedInstruction (s.withFetchWord 16 w) _ hs hpc hfetch).2 none s.pending rfl

/-! ### Memory -/

/-- Settles O27, by the two laws of a memory write. -/
theorem memoryWriteSetsOneByte : Obligations.MemoryWriteSetsOneByte := fun _ a b v hm ha =>
  ⟨Memory.read_write a v b hm, Memory.wf_write v hm ha⟩

/-- The list's first entry is a byte that an unlisted address does not hold. -/
theorem exists_read_ne_of_cons {lo j : Nat} {c : Byte} {m : Memory}
    (hm : Memory.wfFrom lo ((j, c) :: m) = true) :
    ∃ a, a < 4096 ∧ Memory.read ((j, c) :: m) a ≠ unlisted a := by
  obtain ⟨-, hj, hc, -⟩ := (Memory.wfFrom_cons lo j c m).mp hm
  exact ⟨j, hj, by rwa [Memory.read, if_pos rfl]⟩

/-- Behind its own first entry a canonical list reads as its tail, and at that entry the tail reads as an
unlisted address. -/
theorem read_tail {lo j : Nat} {c : Byte} {m : Memory} (hm : Memory.wfFrom lo ((j, c) :: m) = true)
    (a : Nat) : Memory.read m a = if a = j then unlisted a else Memory.read ((j, c) :: m) a := by
  obtain ⟨-, -, -, htail⟩ := (Memory.wfFrom_cons lo j c m).mp hm
  split
  next ha => exact Memory.read_of_lt htail (by omega)
  next ha => rw [Memory.read, if_neg ha]

theorem eq_of_read_eq {m m' : Memory} {lo : Nat} (hm : Memory.wfFrom lo m = true)
    (hm' : Memory.wfFrom lo m' = true)
    (h : ∀ a, a < 4096 → Memory.read m a = Memory.read m' a) : m = m' := by
  induction m generalizing m' lo with
  | nil =>
    cases m' with
    | nil => rfl
    | cons p m' =>
      obtain ⟨a, ha, hne⟩ := exists_read_ne_of_cons hm'
      exact absurd (h a ha).symm hne
  | cons p m ih =>
    cases m' with
    | nil =>
      obtain ⟨a, ha, hne⟩ := exists_read_ne_of_cons hm
      exact absurd (h a ha) hne
    | cons q m' =>
      obtain ⟨j, c⟩ := p
      obtain ⟨k, d⟩ := q
      obtain ⟨rfl, rfl⟩ := Memory.head_eq hm hm' h
      obtain ⟨-, -, -, htail⟩ := (Memory.wfFrom_cons lo j c m).mp hm
      obtain ⟨-, -, -, htail'⟩ := (Memory.wfFrom_cons lo j c m').mp hm'
      rw [ih htail htail' fun a ha => by rw [read_tail hm, read_tail hm', h a ha]]

/-- Settles O28: two canonical lists agree entry by entry. -/
theorem equalReadsMeanEqualMemories : Obligations.EqualReadsMeanEqualMemories :=
  fun _ _ => eq_of_read_eq

end Sys2Proof.Machine

/-! Load and ALU, the flag writers (42_load_and_alu.md rules R123 to R132): the results as numbers, each
followed by its flag. -/

namespace Sys2Proof.Machine

/-! ### Results and flags as numbers -/

theorem byte_sub_eq_ofNat (a b : Byte) :
    a - b = BitVec.ofNat 8 (if a.toNat ≥ b.toNat then a.toNat - b.toNat else a.toNat + 256 - b.toNat) := by
  apply BitVec.eq_of_toNat_eq
  rw [BitVec.toNat_sub, BitVec.toNat_ofNat]
  split <;> omega

theorem byte_ushiftRight_one_eq_ofNat (a : Byte) : a >>> 1 = BitVec.ofNat 8 (a.toNat / 2) := by
  apply BitVec.eq_of_toNat_eq
  rw [BitVec.toNat_ushiftRight, BitVec.toNat_ofNat, Nat.shiftRight_eq_div_pow]
  omega

theorem byte_shiftLeft_one_eq_ofNat (a : Byte) : a <<< 1 = BitVec.ofNat 8 (a.toNat * 2 % 256) := by
  apply BitVec.eq_of_toNat_eq
  rw [BitVec.toNat_shiftLeft, BitVec.toNat_ofNat, Nat.shiftLeft_eq]
  omega

theorem flagByte_decide (p : Prop) [Decidable p] : flagByte (decide p) = if p then 1 else 0 := by
  simp only [flagByte, decide_eq_true_eq]

theorem flagByte_carryOf (a b : Byte) :
    flagByte (carryOf a b) = if a.toNat + b.toNat > 255 then 1 else 0 := flagByte_decide _

theorem flagByte_noBorrow (a b : Byte) :
    flagByte (noBorrow a b) = if a.toNat ≥ b.toNat then 1 else 0 := flagByte_decide _

theorem flagByte_outRight (a : Byte) : flagByte (outRight a) = BitVec.ofNat 8 (a.toNat % 2) := by
  revert a; decide

theorem flagByte_outLeft (a : Byte) : flagByte (outLeft a) = BitVec.ofNat 8 (a.toNat / 128) := by
  revert a; decide

/-! ### The equations of the flag writers -/

theorem State.resetFlag_eq_ite (s : State) :
    s.resetFlag = if s.cfg.qVfReset = true then s.setReg 0xF 0 else s := rfl

/-- EXECUTE of 8XY1 (R123). -/
theorem exec_orVxVy (x y : Nibble) (s : State) :
    exec (.orVxVy x y) s = .next (s.setReg x (s.reg x ||| s.reg y)).resetFlag := rfl

/-- EXECUTE of 8XY2 (R124). -/
theorem exec_andVxVy (x y : Nibble) (s : State) :
    exec (.andVxVy x y) s = .next (s.setReg x (s.reg x &&& s.reg y)).resetFlag := rfl

/-- EXECUTE of 8XY3 (R125). -/
theorem exec_xorVxVy (x y : Nibble) (s : State) :
    exec (.xorVxVy x y) s = .next (s.setReg x (s.reg x ^^^ s.reg y)).resetFlag := rfl

/-- EXECUTE of 8XY4 (R126). -/
theorem exec_addVxVy (x y : Nibble) (s : State) :
    exec (.addVxVy x y) s =
      .next ((s.setReg x (s.reg x + s.reg y)).setReg 0xF (flagByte (carryOf (s.reg x) (s.reg y)))) := rfl

/-- EXECUTE of 8XY5 (R127). -/
theorem exec_subVxVy (x y : Nibble) (s : State) :
    exec (.subVxVy x y) s =
      .next ((s.setReg x (s.reg x - s.reg y)).setReg 0xF (flagByte (noBorrow (s.reg x) (s.reg y)))) := rfl

/-- EXECUTE of 8XY7 (R129). -/
theorem exec_subnVxVy (x y : Nibble) (s : State) :
    exec (.subnVxVy x y) s =
      .next ((s.setReg x (s.reg y - s.reg x)).setReg 0xF (flagByte (noBorrow (s.reg y) (s.reg x)))) := rfl

/-- EXECUTE of 8XY6 (R128). -/
theorem exec_shrVxVy (x y : Nibble) (s : State) :
    exec (.shrVxVy x y) s =
      .next ((s.setReg x (s.shiftSource x y >>> 1)).setReg 0xF (flagByte (outRight (s.shiftSource x y)))) :=
  rfl

/-- EXECUTE of 8XYE (R130). -/
theorem exec_shlVxVy (x y : Nibble) (s : State) :
    exec (.shlVxVy x y) s =
      .next ((s.setReg x (s.shiftSource x y <<< 1)).setReg 0xF (flagByte (outLeft (s.shiftSource x y)))) :=
  rfl

/-! ### The obligations -/

/-- Settles O40: a byte is its eight bits, and the flag is reset after the result is written. -/
theorem logicalOperations : Obligations.LogicalOperations := by
  intro s x y r
  have hbits {b : Byte} (h : ∀ j, j < 8 → r.getLsbD j = b.getLsbD j) : b = r :=
    BitVec.eq_of_getLsbD_eq fun j hj => (h j hj).symm
  refine ⟨fun h => ?_, fun h => ?_, fun h => ?_⟩
  · have hr : s.reg x ||| s.reg y = r := hbits fun j hj => by rw [h j hj, BitVec.getLsbD_or]
    rw [exec_orVxVy, hr, State.resetFlag_eq_ite, State.setReg_cfg]
  · have hr : s.reg x &&& s.reg y = r := hbits fun j hj => by rw [h j hj, BitVec.getLsbD_and]
    rw [exec_andVxVy, hr, State.resetFlag_eq_ite, State.setReg_cfg]
  · have hr : s.reg x ^^^ s.reg y = r := hbits fun j hj => by rw [h j hj, BitVec.getLsbD_xor]
    rw [exec_xorVxVy, hr, State.resetFlag_eq_ite, State.setReg_cfg]

/-- Settles O41: the wrapped sum, then the carry. -/
theorem addSetsCarry : Obligations.AddSetsCarry := by
  intro s x y
  rw [exec_addVxVy, byte_add_eq_ofNat_mod, flagByte_carryOf]

/-- Settles O42: the wrapped difference, then the missing borrow. -/
theorem subtractSetsNoBorrow : Obligations.SubtractSetsNoBorrow := by
  intro s x y
  refine ⟨?_, ?_⟩
  · rw [exec_subVxVy, byte_sub_eq_ofNat, flagByte_noBorrow]
  · rw [exec_subnVxVy, byte_sub_eq_ofNat, flagByte_noBorrow]

/-- Settles O43: `State.shiftSource` is the source the switch picks; the shift, then the bit shifted out. -/
theorem shiftsMoveOneBitIntoVF : Obligations.ShiftsMoveOneBitIntoVF := by
  intro s x y v
  have hv : (s.shiftSource x y).toNat = v := rfl
  refine ⟨?_, ?_⟩
  · rw [exec_shrVxVy, byte_ushiftRight_one_eq_ofNat, flagByte_outRight, hv]
  · rw [exec_shlVxVy, byte_shiftLeft_one_eq_ofNat, flagByte_outLeft, hv]

end Sys2Proof.Machine

/-! Memory transfer (43_index_and_memory.md rules R143 to R145): what FX33 and FX55 store, what FX65 loads, and
that the range is checked as a whole before the first access. -/

namespace Sys2Proof.Machine

/-! ### The equations of the three instructions -/

section
variable (x : Nibble) {s : State}

/-- EXECUTE of FX33 inside the address space (R143). -/
theorem exec_ldBVx_of_le (h : s.i.toNat + 2 ≤ 4095) :
    exec (.ldBVx x) s =
      .next { s with mem := Memory.writeBytes s.mem s.i.toNat (decimalDigits (s.reg x)) } :=
  checkData_of_le s _ h

theorem exec_ldBVx_of_lt (h : 4095 < s.i.toNat + 2) :
    exec (.ldBVx x) s = .next (s.faulted .dataAddressFault) := checkData_of_lt s _ h

/-- EXECUTE of FX55 inside the address space (R144). -/
theorem exec_dumpVx_of_le (h : s.i.toNat + x.toNat ≤ 4095) :
    exec (.dumpVx x) s =
      .next { s with mem := Memory.writeBytes s.mem s.i.toNat (s.regsUpTo x), i := s.advancedI x } :=
  checkData_of_le s _ h

theorem exec_dumpVx_of_lt (h : 4095 < s.i.toNat + x.toNat) :
    exec (.dumpVx x) s = .next (s.faulted .dataAddressFault) := checkData_of_lt s _ h

/-- EXECUTE of FX65 inside the address space (R145). -/
theorem exec_loadVx_of_le (h : s.i.toNat + x.toNat ≤ 4095) :
    exec (.loadVx x) s = .next { s.loadRegs x s.i.toNat with i := s.advancedI x } :=
  checkData_of_le s _ h

theorem exec_loadVx_of_lt (h : 4095 < s.i.toNat + x.toNat) :
    exec (.loadVx x) s = .next (s.faulted .dataAddressFault) := checkData_of_lt s _ h

end

/-! ### What is stored, and I -/

theorem State.advancedI_eq (s : State) (x : Nibble) :
    s.advancedI x =
      if s.cfg.qMemIncr = true then BitVec.ofNat 16 (s.i.toNat + x.toNat + 1) else s.i := by
  have hsum : s.i + BitVec.ofNat 16 (x.toNat + 1) = BitVec.ofNat 16 (s.i.toNat + x.toNat + 1) := by
    rw [Nat.add_assoc, BitVec.ofNat_add s.i.toNat, BitVec.ofNat_toNat, BitVec.setWidth_eq]
  rw [State.advancedI, hsum]

theorem State.getD_regsUpTo (s : State) {x j : Nibble} (h : j.toNat ≤ x.toNat) :
    (s.regsUpTo x).getD j.toNat 0 = s.reg j := by
  have hlt : j.toNat < 16 := j.isLt
  rw [State.regsUpTo, List.getD_eq_getElem?_getD, List.getElem?_take_of_lt (by omega)]
  simp [State.reg, hlt]

/-- Byte k of a run of bytes that was written. -/
theorem read_writeBytes_inside {m : Memory} {a k : Nat} {bs : List Byte} (hm : Memory.wf m = true)
    (h : a + bs.length ≤ 4096) (hk : k < bs.length) :
    Memory.read (Memory.writeBytes m a bs) (a + k) = bs.getD k 0 := by
  rw [Memory.read_writeBytes _ hm h, if_pos (by omega), Nat.add_sub_cancel_left]

theorem read_writeBytes_outside {m : Memory} {a c : Nat} {bs : List Byte} (hm : Memory.wf m = true)
    (h : a + bs.length ≤ 4096) (hc : c < a ∨ a + bs.length ≤ c) :
    Memory.read (Memory.writeBytes m a bs) c = Memory.read m c := by
  rw [Memory.read_writeBytes _ hm h, if_neg (by omega)]

/-! ### The obligations -/

/-- Settles O46: the three digits are the bytes of one run of writes. -/
theorem bcdStoresThreeDigits : Obligations.BcdStoresThreeDigits := by
  intro s x hm
  refine ⟨fun h => ?_, fun h => exec_ldBVx_of_lt x (by omega)⟩
  have hfits : s.i.toNat + (decimalDigits (s.reg x)).length ≤ 4096 := by
    rw [length_decimalDigits]; omega
  have hread {k : Nat} (hk : k < 3) := read_writeBytes_inside hm hfits hk
  refine ⟨_, exec_ldBVx_of_le x (by omega), rfl, ?_, ?_, ?_, fun a ha => ?_⟩
  · exact congrArg BitVec.toNat (hread (k := 0) (by omega))
  · rw [hread (k := 1) (by omega)]
    simp [decimalDigits]
  · rw [hread (k := 2) (by omega)]
    simp [decimalDigits]
  · exact read_writeBytes_outside hm hfits (by rw [length_decimalDigits]; omega)

/-- Settles O47: the stored registers are the bytes of one run of writes. -/
theorem dumpStoresRegisters : Obligations.DumpStoresRegisters := by
  intro s x hm
  refine ⟨fun h => ?_, fun h => exec_dumpVx_of_lt x h⟩
  have hfits : s.i.toNat + (s.regsUpTo x).length ≤ 4096 := by
    rw [State.length_regsUpTo]; omega
  refine ⟨_, exec_dumpVx_of_le x h, ?_, fun j hj => ?_, fun a ha => ?_⟩
  · rw [State.advancedI_eq]
  · have hk : j.toNat < (s.regsUpTo x).length := by rw [State.length_regsUpTo]; omega
    exact (read_writeBytes_inside hm hfits hk).trans (s.getD_regsUpTo hj)
  · exact read_writeBytes_outside hm hfits (by rw [State.length_regsUpTo]; omega)

/-- Settles O48: reading a register after the load is the law `State.reg_loadRegs`. -/
theorem loadFillsRegisters : Obligations.LoadFillsRegisters := by
  intro s x
  refine ⟨fun h => ?_, fun h => exec_loadVx_of_lt x h⟩
  refine ⟨_, exec_loadVx_of_le x h, ?_, fun j => State.reg_loadRegs s x j _⟩
  rw [State.advancedI_eq]
  rfl

/-- Settles O49: FX65 reads back byte by byte what FX55 stored. -/
theorem dumpThenLoadRestoresRegisters : Obligations.DumpThenLoadRestoresRegisters := by
  intro s x hm h
  obtain ⟨t, hdump, -, hstored, -⟩ := (dumpStoresRegisters s x hm).1 h
  refine ⟨t, hdump, fun u hmem hi => ?_⟩
  obtain ⟨u', hload, heq, hloaded⟩ := (loadFillsRegisters u x).1 (by rw [hi]; exact h)
  refine ⟨u', hload, by rw [heq, hmem], fun j => ⟨fun hj => ?_, fun hj => ?_⟩⟩
  · rw [hloaded, if_pos hj, hmem, hi, hstored j hj]
  · rw [hloaded, if_neg (Nat.not_le.mpr hj)]

/-- Settles O29: V0 and V1 are the two bytes that the next FETCH reads. -/
theorem storeIsSeenByTheNextFetch : Obligations.StoreIsSeenByTheNextFetch := by
  intro s rnd _ hm hi hpc
  obtain ⟨t, hdump, heq, hstored, -⟩ := (dumpStoresRegisters s 0x1 hm).1 (by rw [hi]; simp; omega)
  have htpc : t.pc = s.pc := by rw [heq]
  have h0 : Memory.read t.mem t.pc.toNat = s.reg 0x0 := by
    rw [htpc, ← hi]; exact hstored 0x0 (by decide)
  have h1 : Memory.read t.mem (t.pc.toNat + 1) = s.reg 0x1 := by
    rw [htpc, ← hi]; exact hstored 0x1 (by decide)
  refine ⟨t, hdump, ?_⟩
  rw [(fetchReadsBigEndianAndAdvances t rnd).1 (by rw [htpc]; exact hpc), h0, h1, htpc]

end Sys2Proof.Machine

/-! Keypad (45_keypad_timers_random.md rules R170 to R172): the key skips, the least pressed key, and the
three states of FX0A's wait. -/

namespace Sys2Proof.Machine

/-! ### Key skips -/

/-- A byte up to 15 cut to four bits is the same number. -/
theorem byte_setWidth_four_eq_ofNat (b : Byte) : b.setWidth 4 = BitVec.ofNat 4 b.toNat :=
  (BitVec.ofNat_toNat 4 b).symm

theorem skipIfKey_of_le {x : Nibble} {s : State} (want : Bool) (h : (s.reg x).toNat ≤ 15) :
    skipIfKey want x s =
      .next { s with pc := if s.key (BitVec.ofNat 4 (s.reg x).toNat) = want then s.pc + 2 else s.pc } := by
  rw [skipIfKey, if_pos h, skipIf_eq, byte_setWidth_four_eq_ofNat]
  simp only [beq_iff_eq]

theorem skipIfKey_of_lt {x : Nibble} {s : State} (want : Bool) (h : 15 < (s.reg x).toNat) :
    skipIfKey want x s = .next (s.faulted .keyIndexFault) := if_neg (Nat.not_le.mpr h)

/-- Settles O53: EX9E wants the key down, EXA1 up. -/
theorem keySkipsTestTheLatch : Obligations.KeySkipsTestTheLatch := by
  intro s x
  refine ⟨fun h => ⟨skipIfKey_of_le true h, (skipIfKey_of_le false h).trans ?_⟩,
    fun h => ⟨skipIfKey_of_lt true h, skipIfKey_of_lt false h⟩⟩
  cases s.key (BitVec.ofNat 4 (s.reg x).toNat) <;> rfl

/-! ### The least pressed key (R172) -/

theorem firstPressed_eq_none {s : State} {ks : List Nibble} (h : ∀ k ∈ ks, s.key k = false) :
    firstPressed s ks = none := by
  induction ks with
  | nil => rfl
  | cons k ks ih =>
    rw [firstPressed, if_neg (by simp [h k]), ih fun j hj => h j (List.mem_cons_of_mem k hj)]

/-- In a rising list the first key found is the one with no lower key down. -/
theorem firstPressed_eq_some {s : State} {ks : List Nibble} {k : Nibble}
    (hrise : ks.Pairwise fun i j => i.toNat < j.toNat) (hmem : k ∈ ks) (hk : s.key k = true)
    (hlow : ∀ j : Nibble, j.toNat < k.toNat → s.key j = false) : firstPressed s ks = some k := by
  induction ks with
  | nil => cases hmem
  | cons i ks ih =>
    obtain ⟨hi, hrise⟩ := List.pairwise_cons.mp hrise
    rw [firstPressed]
    obtain rfl | hmem := List.mem_cons.mp hmem
    · rw [if_pos hk]
    · rw [if_neg (by simp [hlow i (hi k hmem)]), ih hrise hmem]

theorem allKeys_rising : allKeys.Pairwise fun i j => i.toNat < j.toNat := by decide

theorem mem_allKeys (k : Nibble) : k ∈ allKeys := by
  revert k; decide

/-! ### FX0A -/

theorem exec_ldVxK_of_press (x : Nibble) {s : State} (h : s.kwState ≠ .awaitingRelease) :
    exec (.ldVxK x) s = .next s.awaitPress := by
  rw [exec, execLdVxK]
  split
  · rfl
  · rfl
  next hkw => exact absurd hkw h

theorem exec_ldVxK_of_release (x : Nibble) {s : State} (h : s.kwState = .awaitingRelease) :
    exec (.ldVxK x) s = .next (s.awaitRelease x) := by
  rw [exec, execLdVxK, h]

/-- Settles O54, by the wait's state and then by the latch. -/
theorem keyWaitFollowsItsStates : Obligations.KeyWaitFollowsItsStates := by
  intro s x
  refine ⟨fun h => ?_, fun h => ?_⟩
  · rw [exec_ldVxK_of_press x h, State.awaitPress, State.leastPressed]
    refine ⟨fun k hk hlow => ?_, fun hnone => ?_⟩
    · rw [firstPressed_eq_some allKeys_rising (mem_allKeys k) hk hlow]
    · rw [firstPressed_eq_none fun k _ => hnone k]
  · rw [exec_ldVxK_of_release x h, State.awaitRelease]
    refine ⟨fun hdown => ?_, fun hup => ?_⟩
    · rw [if_pos hdown]
    · rw [if_neg (by simp [hup]), BitVec.ofNat_toNat]

end Sys2Proof.Machine

/-! A press and a release across cycles of FX0A (95_test_vectors.md S6). -/

namespace Sys2Proof.Machine

theorem runSteps_of_step {s t : State} (k : Nat) (h : step s = .next t) :
    runSteps (k + 1) s = runSteps k t := by
  rw [runSteps, h]

/-- The state that EXECUTE is given in a delivered cycle with no supplied byte. -/
def State.fetched (s : State) (es : List Event) : State :=
  { s with pc := s.pc + 2, batch := s.batch + 1, rndIn := none, pending := es }

/-- The state parked on its FX0A, n cycles on. -/
def State.waiting (s : State) (kwState : KwState) (kwKey : Nibble) (n : Nat) (es : List Event) : State :=
  { s with kwState := kwState, kwKey := kwKey, batch := s.batch + n, rndIn := none, pending := es }

/-! ### One step of a machine whose pc is on an FX0A -/

section
variable {s : State} {x : Nibble} {es : List Event}

/-- A delivered cycle runs the FX0A at pc. -/
theorem step_ldVxK (hfetch : s.canFetch) (hx : s.instrAtPc = .ldVxK x)
    (hp : s.pending = .instrCycle none :: es) : step s = exec (.ldVxK x) (s.fetched es) := by
  obtain ⟨hrun, hpc⟩ := hfetch
  rw [step_pending hp, deliver_instrCycle (s := { s with pending := es }) none hrun, ← hx]
  exact (fetchReadsBigEndianAndAdvances { s with pending := es } none).1 hpc

theorem step_ldVxK_of_no_key (hfetch : s.canFetch) (hx : s.instrAtPc = .ldVxK x)
    (hp : s.pending = .instrCycle none :: es) (hkw : s.kwState ≠ .awaitingRelease)
    (hkeys : ∀ j, s.key j = false) : step s = .next (s.waiting .awaitingPress s.kwKey 1 es) := by
  rw [step_ldVxK hfetch hx hp, ((keyWaitFollowsItsStates (s.fetched es) x).1 hkw).2 hkeys,
    State.fetched, BitVec.add_sub_cancel, State.waiting]

theorem step_ldVxK_of_key (hfetch : s.canFetch) (hx : s.instrAtPc = .ldVxK x)
    (hp : s.pending = .instrCycle none :: es) (hkw : s.kwState ≠ .awaitingRelease) {k : Nibble}
    (hk : s.key k = true) (hlow : ∀ j : Nibble, j.toNat < k.toNat → s.key j = false) :
    step s = .next (s.waiting .awaitingRelease k 1 es) := by
  rw [step_ldVxK hfetch hx hp, ((keyWaitFollowsItsStates (s.fetched es) x).1 hkw).1 k hk hlow,
    State.fetched, BitVec.add_sub_cancel, State.waiting]

theorem step_ldVxK_of_release (hfetch : s.canFetch) (hx : s.instrAtPc = .ldVxK x)
    (hp : s.pending = .instrCycle none :: es) (hkw : s.kwState = .awaitingRelease)
    (hup : s.key s.kwKey = false) :
    step s = .next { (s.fetched es).setReg x (BitVec.ofNat 8 s.kwKey.toNat) with kwState := .idle } := by
  rw [step_ldVxK hfetch hx hp, ((keyWaitFollowsItsStates (s.fetched es) x).2 hkw).2 hup]
  rfl

end

/-! ### The key down and up again -/

theorem step_waiting_keyWrite (s : State) (kwState : KwState) (kwKey k : Nibble) (n : Nat) (b : Bool)
    (es : List Event) :
    step (s.waiting kwState kwKey n (.keyWrite k b :: es)) =
      .next ((keyWrite k b s).waiting kwState kwKey n es) :=
  step_pending (s := s.waiting kwState kwKey n (.keyWrite k b :: es)) rfl

/-- A key that was up, pressed and released, leaves the latch as it was. -/
theorem keyWrite_keyWrite_of_up {s : State} {k : Nibble} (h : s.key k = false) (b : Bool) :
    keyWrite k false (keyWrite k b s) = s := by
  rw [State.key] at h
  simp only [keyWrite, Vector.set_set, ← h, Vector.set_getElem_self]

/-- With every key up, after key k is pressed it is the least one down. -/
theorem key_keyWrite_of_lt {s : State} (hkeys : ∀ j, s.key j = false) (k j : Nibble)
    (hj : j.toNat < k.toNat) : (keyWrite k true s).key j = false := by
  have hne : j ≠ k := by rintro rfl; exact Nat.lt_irrefl _ hj
  rw [State.key_keyWrite, if_neg hne, hkeys]

/-- Settles O55: the five events one by one; pc is parked until the last of them. -/
theorem keyWaitTakesAPressAndRelease : Obligations.KeyWaitTakesAPressAndRelease := by
  intro s x k rest hfetch hx hidle hkeys hp
  have hrestored : keyWrite k false (keyWrite k true s) = s := keyWrite_keyWrite_of_up (hkeys k) true
  have hdown : (keyWrite k true s).key k = true := by rw [State.key_keyWrite, if_pos rfl]
  have hcycle1 := step_ldVxK_of_no_key hfetch hx hp (by simp [hidle]) hkeys
  have hpress := step_waiting_keyWrite s .awaitingPress s.kwKey k 1 true
    (.instrCycle none :: .keyWrite k false :: .instrCycle none :: rest)
  have hcycle2 := step_ldVxK_of_key (k := k)
    (s := (keyWrite k true s).waiting .awaitingPress s.kwKey 1
      (.instrCycle none :: .keyWrite k false :: .instrCycle none :: rest))
    hfetch hx rfl (by simp [State.waiting]) hdown (key_keyWrite_of_lt hkeys k)
  have hrelease := step_waiting_keyWrite (keyWrite k true s) .awaitingRelease k k 2 false
    (.instrCycle none :: rest)
  rw [hrestored] at hrelease
  have hcycle3 := step_ldVxK_of_release
    (s := s.waiting .awaitingRelease k 2 (.instrCycle none :: rest)) hfetch hx rfl rfl (hkeys k)
  have hfour (n : Nat) : runSteps (n + 4) s =
      runSteps n (s.waiting .awaitingRelease k 2 (.instrCycle none :: rest)) := by
    rw [runSteps_of_step _ hcycle1, runSteps_of_step _ hpress, runSteps_of_step _ hcycle2]
    exact runSteps_of_step _ hrelease
  refine ⟨⟨_, hfour 0, rfl, rfl, rfl⟩, ?_⟩
  rw [hfour 1, runSteps_of_step _ hcycle3, ← hidle]
  rfl

end Sys2Proof.Machine

/-! Nested calls (41_flow_and_skip.md rules R100, R102; 95_test_vectors.md S5): each call lays its return
address on top of the entries in use, and each return takes the topmost one off. -/

namespace Sys2Proof.Machine

/-! ### Instructions in order -/

theorem execInOrder_cons {i : Instr} {s t : State} (is : List Instr) (h : exec i s.advancePc = .next t) :
    execInOrder (i :: is) s = execInOrder is t := by
  rw [execInOrder, h]

theorem execInOrder_append {is : List Instr} {s t : State} (js : List Instr)
    (h : execInOrder is s = .next t) : execInOrder (is ++ js) s = execInOrder js t := by
  induction is generalizing s with
  | nil => rw [List.nil_append, Host.Outcome.next.inj h]
  | cons i is ih =>
    obtain ⟨u, hu⟩ := exec_completes i s.advancePc
    rw [execInOrder_cons is hu] at h
    rw [List.cons_append, execInOrder_cons _ hu, ih h]

/-! ### One call and one return -/

/-- A fetched call with room on the stack: the entries in use stay, and the address after the call lies on
top of them. -/
theorem exec_callAddr_fetched {s : State} (nnn : Addr) (h : s.sp.val < s.cfg.stackCapacity.val)
    (hsp : s.sp.val + 1 < 17) :
    ∃ stack : Vector Word 16,
      exec (.callAddr nnn) s.advancePc =
        .next { s with stack := stack, sp := ⟨s.sp.val + 1, hsp⟩, pc := addrWord nnn } ∧
      (∀ j : Fin 16, j.val < s.sp.val → stack[j] = s.stack[j]) ∧
      ∀ j : Fin 16, j.val = s.sp.val → stack[j] = s.pc + 2 := by
  refine ⟨s.stack.set s.sp.val (s.pc + 2) (by omega), ?_, fun j hj => ?_, fun j hj => ?_⟩
  · exact (exec_callAddr nnn s.advancePc).trans (pushThen_of_lt (s := s.advancePc) _ _ h)
  · simp [Vector.getElem_set_ne, Nat.ne_of_gt hj]
  · simp [hj]

/-- A fetched return goes to the topmost entry in use and leaves the storage alone. -/
theorem exec_ret_fetched {s : State} (j : Fin 16) (h : s.sp.val = j.val + 1) :
    exec .ret s.advancePc = .next { s with sp := ⟨j.val, by omega⟩, pc := s.stack[j] } :=
  (exec_ret s.advancePc).trans (popThen_of_eq_succ (s := s.advancePc) _ j h)

/-! ### As many returns as calls, and one call too many -/

/-- Each call's return address lies above the entries in use before it, so the inner calls and returns
leave it for the call's own return. -/
theorem execInOrder_calls_rets (targets : List Addr) (s : State)
    (h : s.sp.val + targets.length ≤ s.cfg.stackCapacity.val) :
    ∃ stack : Vector Word 16,
      execInOrder (targets.map Instr.callAddr ++ List.replicate targets.length Instr.ret) s =
        .next { s with pc := if targets = [] then s.pc else s.pc + 2, stack := stack } ∧
      ∀ j : Fin 16, j.val < s.sp.val → stack[j] = s.stack[j] := by
  induction targets generalizing s with
  | nil => exact ⟨s.stack, rfl, fun _ _ => rfl⟩
  | cons nnn targets ih =>
    rw [List.length_cons] at h
    have hcap := s.cfg.stackCapacity.isLt
    obtain ⟨called, hcall, hkept, htop⟩ := exec_callAddr_fetched (s := s) nnn (by omega) (by omega)
    obtain ⟨stack, hinner, hinnerKept⟩ :=
      ih { s with stack := called, sp := ⟨s.sp.val + 1, by omega⟩, pc := addrWord nnn } (by simp; omega)
    have htopKept : stack[s.sp.val] = s.pc + 2 :=
      (hinnerKept ⟨s.sp.val, by omega⟩ (Nat.lt_succ_self _)).trans (htop ⟨s.sp.val, by omega⟩ rfl)
    refine ⟨stack, ?_, fun j hj => ?_⟩
    · rw [List.length_cons, List.replicate_succ', List.map_cons, List.cons_append,
        execInOrder_cons _ hcall, ← List.append_assoc, execInOrder_append _ hinner,
        execInOrder_cons _ (exec_ret_fetched ⟨s.sp.val, by omega⟩ rfl), execInOrder,
        if_neg (List.cons_ne_nil nnn targets), ← htopKept]
      rfl
    · exact (hinnerKept j (Nat.lt_succ_of_lt hj)).trans (hkept j hj)

/-- Calls that fit all run, one entry deeper each. -/
theorem execInOrder_calls (targets : List Addr) (s : State)
    (h : s.sp.val + targets.length ≤ s.cfg.stackCapacity.val) :
    ∃ t, execInOrder (targets.map Instr.callAddr) s = .next t ∧
      t.sp.val = s.sp.val + targets.length ∧ t.cfg = s.cfg := by
  induction targets generalizing s with
  | nil => exact ⟨s, rfl, rfl, rfl⟩
  | cons nnn targets ih =>
    rw [List.length_cons] at h
    have hcap := s.cfg.stackCapacity.isLt
    obtain ⟨called, hcall, -⟩ := exec_callAddr_fetched (s := s) nnn (by omega) (by omega)
    obtain ⟨t, hrun, hsp, hcfg⟩ :=
      ih { s with stack := called, sp := ⟨s.sp.val + 1, by omega⟩, pc := addrWord nnn } (by simp; omega)
    refine ⟨t, ?_, ?_, hcfg⟩
    · rw [List.map_cons, execInOrder_cons _ hcall, hrun]
    · rw [hsp, List.length_cons]
      simp only
      omega

/-- Settles O37: the nesting of calls and returns, and the push on a full stack. -/
theorem nestedCallsReturn : Obligations.NestedCallsReturn := by
  intro targets s h
  refine ⟨?_, fun hfull nnn => ?_⟩
  · obtain ⟨stack, hrun, hkept⟩ := execInOrder_calls_rets targets s h
    exact ⟨_, hrun, rfl, hkept⟩
  · obtain ⟨t, hrun, hsp, hcfg⟩ := execInOrder_calls targets s h
    have hover : exec (.callAddr nnn) t.advancePc = .next (t.advancePc.faulted .stackOverflow) :=
      (exec_callAddr nnn t.advancePc).trans
        (pushThen_of_full (s := t.advancePc) _ _ (by simp [hsp, hcfg, hfull]))
    refine ⟨t.advancePc.faulted .stackOverflow, ?_, rfl, rfl, hsp.trans hfull⟩
    rw [execInOrder_append _ hrun, execInOrder_cons _ hover, execInOrder]

end Sys2Proof.Machine

/-! DXYN (44_display.md rules R161, R162): the model's row-by-row cells are the hits of R161's loops, each hit
turns its cell over, and a sprite no taller than the screen hits no cell twice. -/

namespace Sys2Proof.Machine

/-! ### The cells of a sprite are its hits -/

/-- A coordinate is kept modulo the size, unless clipping drops it. -/
theorem placeOnAxis_eq (clip : Bool) (size p : Nat) :
    placeOnAxis clip size p = if clip = true → p < size then some (p % size) else none := by
  unfold placeOnAxis
  by_cases hp : p < size
  · rw [if_pos hp, if_pos fun _ => hp, Nat.mod_eq_of_lt hp]
  · cases clip <;> simp [hp]

/-- One row of R161's loops, at row y of the screen. -/
def rowHits (c : Config) (x0 y : Nat) (row : Byte) : List Nat :=
  (List.range 8).filterMap fun col =>
    if row.getLsbD (7 - col) ∧ (c.qClip = true → x0 + col < c.displayW ∧ y < c.displayH) then
      some (y % c.displayH * c.displayW + (x0 + col) % c.displayW)
    else none

theorem rowCells_eq_rowHits (c : Config) (x0 y : Nat) (row : Byte) :
    rowCells c x0 y row = rowHits c x0 y row := by
  unfold rowCells rowHits
  rw [placeOnAxis_eq]
  by_cases hy : c.qClip = true → y < c.displayH
  · rw [if_pos hy]
    simp only [rowColumns, List.map_filterMap, placeOnAxis_eq]
    refine List.filterMap_congr fun col _ => ?_
    have hboth : (c.qClip = true → x0 + col < c.displayW ∧ y < c.displayH) ↔
        (c.qClip = true → x0 + col < c.displayW) := by
      rw [imp_and, and_iff_left hy]
    simp only [hboth, ite_and]
    split
    · split <;> rfl
    · rfl
  · rw [if_neg hy]
    refine (List.filterMap_eq_nil_iff.mpr fun col _ => if_neg ?_).symm
    rintro ⟨-, hboth⟩
    exact hy fun hclip => (hboth hclip).2

theorem spriteHits_eq_flatMap (c : Config) (x0 y0 n : Nat) (rows : List Byte) :
    spriteHits c x0 y0 n rows =
      (List.range n).flatMap fun r => rowHits c x0 (y0 + r) (rows.getD r 0) := rfl

theorem spriteCells_eq_spriteHits (c : Config) (x0 y0 : Nat) (rows : List Byte) :
    spriteCells c x0 y0 rows = spriteHits c x0 y0 rows.length rows := by
  rw [spriteHits_eq_flatMap]
  induction rows generalizing y0 with
  | nil => rfl
  | cons row rows ih =>
    rw [spriteCells, ih, rowCells_eq_rowHits, List.length_cons, List.range_succ_eq_map, List.flatMap_cons,
      List.flatMap_map]
    simp only [List.getD_cons_zero, List.getD_cons_succ, Nat.add_zero, Nat.succ_eq_add_one, Nat.add_assoc,
      Nat.add_comm 1]

theorem State.drawnCells_eq_hits (s : State) (x y n : Nibble) : s.drawnCells x y n = s.hits x y n := by
  have hlen : (Memory.readBytes s.mem s.i.toNat n.toNat).length = n.toNat := by
    rw [Memory.readBytes, List.length_map, List.length_range]
  rw [State.drawnCells, spriteCells_eq_spriteHits, hlen]
  rfl

theorem State.hits_lt {s : State} (hc : s.cfg.wf = true) (x y n : Nibble) :
    ∀ c ∈ s.hits x y n, c < s.cfg.displayW * s.cfg.displayH :=
  s.drawnCells_eq_hits x y n ▸ State.drawnCells_lt hc x y n

/-! ### What DXYN answers -/

/-- The range check of R161. -/
def State.spriteInRange (s : State) (n : Nibble) : Prop := n.toNat = 0 ∨ s.i.toNat + n.toNat - 1 ≤ 4095

theorem exec_drwVxVy_of_inRange {s : State} {n : Nibble} (x y : Nibble) (h : s.spriteInRange n) :
    exec (.drwVxVy x y n) s = .next (s.drawn (s.hits x y n)) := by
  rw [← State.drawnCells_eq_hits]
  by_cases hn : n.toNat = 0
  · have hnil : s.drawnCells x y n = [] := by rw [State.drawnCells, hn]; rfl
    rw [hnil]
    exact if_pos hn
  · exact (if_neg hn).trans (checkData_of_le s _ (h.resolve_left hn))

theorem exec_drwVxVy_of_lt {s : State} {n : Nibble} (x y : Nibble) (hn : 0 < n.toNat)
    (h : 4095 < s.i.toNat + n.toNat - 1) :
    exec (.drwVxVy x y n) s = .next (s.faulted .dataAddressFault) :=
  (if_neg (Nat.ne_of_gt hn)).trans (checkData_of_lt s _ h)

/-- A draw that leaves the machine Running was in range. -/
theorem spriteInRange_of_exec {s t : State} {x y n : Nibble} (h : exec (.drwVxVy x y n) s = .next t)
    (ht : t.runState = .running) : s.spriteInRange n := by
  obtain ⟨hn, -⟩ | ⟨-, hhi, -⟩ | ⟨-, -, rfl⟩ := execDrwVxVy_next h
  · exact .inl hn
  · exact .inr hhi
  · cases ht

/-! ### Collisions -/

theorem flagByte_eq_one_iff (b : Bool) : flagByte b = 1 ↔ b = true := by
  cases b <;> simp [flagByte]

theorem parity_count_cons (i c : Nat) (cells : List Nat) :
    ((i :: cells).count c % 2 == 1) = (decide (c = i) ^^ (cells.count c % 2 == 1)) := by
  rw [List.count_cons]
  by_cases h : c = i
  · subst h
    rcases Nat.mod_two_eq_zero_or_one (cells.count c) with e | e <;> simp [e, Nat.add_mod]
  · simp [h, Ne.symm h]

/-- The collision flag goes up when some hit finds its cell on, the earlier hits taken into account. -/
theorem collision_xorCells_iff {n : Nat} {cells px : List Nat} {hit : Bool}
    (hp : pxWfFrom 0 n px = true) (hc : ∀ i ∈ cells, i < n) :
    (xorCells cells (px, hit)).2 = true ↔
      hit = true ∨ ∃ k, ∃ h : k < cells.length,
        (cellOn px cells[k] ^^ ((cells.take k).count cells[k] % 2 == 1)) = true := by
  induction cells generalizing px hit with
  | nil => simp [xorCells]
  | cons i cells ih =>
    have hi : i < n := hc i List.mem_cons_self
    rw [xorCells, ih (pxWfFrom_toggleCell hp (Nat.zero_le _) hi) fun j hj => hc j (List.mem_cons_of_mem i hj)]
    simp only [List.length_cons, Nat.exists_lt_succ_left', List.getElem_cons_zero, List.take_zero,
      List.count_nil, List.getElem_cons_succ, List.take_succ_cons, parity_count_cons,
      cellOn_toggleCell _ _ hp, Bool.or_eq_true, or_assoc, Bool.xor_assoc]
    simp

/-- Hits on distinct cells do not meet each other. -/
theorem collision_xorCells_of_nodup {n : Nat} {cells px : List Nat} {hit : Bool}
    (hp : pxWfFrom 0 n px = true) (hc : ∀ i ∈ cells, i < n) (hnodup : cells.Nodup) :
    (xorCells cells (px, hit)).2 = true ↔ hit = true ∨ ∃ c ∈ cells, cellOn px c = true := by
  induction cells generalizing px hit with
  | nil => simp [xorCells]
  | cons i cells ih =>
    obtain ⟨hi, hnodup⟩ := List.nodup_cons.mp hnodup
    have hsame : ∀ c ∈ cells, cellOn (toggleCell i px) c = cellOn px c := by
      intro c hc
      have hne : c ≠ i := fun h => hi (h ▸ hc)
      simp [cellOn_toggleCell i c hp, hne]
    have hcong : (∃ c ∈ cells, cellOn (toggleCell i px) c = true) ↔ ∃ c ∈ cells, cellOn px c = true :=
      exists_congr fun c => and_congr_right fun hc => by rw [hsame c hc]
    rw [xorCells, ih (pxWfFrom_toggleCell hp (Nat.zero_le _) (hc i List.mem_cons_self))
      (fun j hj => hc j (List.mem_cons_of_mem i hj)) hnodup, hcong]
    simp [or_assoc]

/-- Settles O51: the hits turned over one after another, then the collision flag. -/
theorem drawXorsTheSprite : Obligations.DrawXorsTheSprite := by
  intro s x y n hs
  refine ⟨fun h => ?_, fun hn h => exec_drwVxVy_of_lt x y hn h⟩
  have hlt := State.hits_lt hs.config x y n
  have hflag : (s.drawn (s.hits x y n)).reg 0xF = flagByte (xorCells (s.hits x y n) (s.px, false)).2 :=
    State.reg_setFlag_F _ _
  refine ⟨_, exec_drwVxVy_of_inRange x y h, fun c => ?_, ?_, ?_, ?_, ?_⟩
  · exact cellOn_xorCells c hs.pixels hlt
  · exact pxWfFrom_xorCells hs.pixels hlt
  · rw [hflag, flagByte_eq_one_iff, collision_xorCells_iff hs.pixels hlt]
    simp
  · rw [hflag]
    exact flagByte_eq_zero_or_one _
  · rw [hflag]
    rfl

/-! ### A sprite no taller than the screen -/

/-- Offsets below the size land on different places of an axis. -/
theorem add_mod_injective {a i j m : Nat} (hi : i < m) (hj : j < m) (h : (a + i) % m = (a + j) % m) :
    i = j := by
  have hmod : i % m = j % m := Nat.ModEq.add_left_cancel' a h
  rwa [Nat.mod_eq_of_lt hi, Nat.mod_eq_of_lt hj] at hmod

/-- Cells are told apart by row and column. -/
theorem row_column_of_cell_eq {w r r' c c' : Nat} (hc : c < w) (hc' : c' < w)
    (h : r * w + c = r' * w + c') : r = r' ∧ c = c' := by
  have hcol : c = c' := by
    rw [← Nat.mul_add_mod_of_lt (a := r) hc, h, Nat.mul_add_mod_of_lt hc']
  refine ⟨?_, hcol⟩
  subst hcol
  exact Nat.eq_of_mul_eq_mul_right (by omega) (Nat.add_right_cancel h)

theorem eq_of_mem_rowHits {c : Config} {x0 y i : Nat} {row : Byte} (h : i ∈ rowHits c x0 y row) :
    ∃ col < 8, i = y % c.displayH * c.displayW + (x0 + col) % c.displayW := by
  obtain ⟨col, hcol, hi⟩ := List.mem_filterMap.mp h
  split at hi
  · exact ⟨col, List.mem_range.mp hcol, (Option.some.inj hi).symm⟩
  · cases hi

theorem nodup_rowHits {c : Config} (hw : 8 ≤ c.displayW) (x0 y : Nat) (row : Byte) :
    (rowHits c x0 y row).Nodup := by
  refine List.pairwise_filterMap.mpr (List.nodup_range.imp_of_mem fun {col col'} hcol hcol' hne => ?_)
  rw [List.mem_range] at hcol hcol'
  intro i hi i' hi' heq
  simp only [Option.ite_none_right_eq_some, Option.some.injEq] at hi hi'
  have hsame : y % c.displayH * c.displayW + (x0 + col) % c.displayW =
      y % c.displayH * c.displayW + (x0 + col') % c.displayW := hi.2.trans (heq.trans hi'.2.symm)
  exact hne (add_mod_injective (by omega) (by omega) (Nat.add_left_cancel hsame))

/-- With at most as many rows as the screen has, no two rows land on one row of the screen. -/
theorem nodup_spriteHits {c : Config} (hw : 8 ≤ c.displayW) {n : Nat} (hn : n ≤ c.displayH) (x0 y0 : Nat)
    (rows : List Byte) : (spriteHits c x0 y0 n rows).Nodup := by
  rw [spriteHits_eq_flatMap]
  refine List.pairwise_flatMap.mpr ⟨fun r _ => nodup_rowHits hw x0 _ _,
    List.nodup_range.imp_of_mem fun {r r'} hr hr' hne i hi i' hi' heq => ?_⟩
  rw [List.mem_range] at hr hr'
  obtain ⟨col, -, rfl⟩ := eq_of_mem_rowHits hi
  obtain ⟨col', -, rfl⟩ := eq_of_mem_rowHits hi'
  obtain ⟨hrow, -⟩ := row_column_of_cell_eq (Nat.mod_lt _ (by omega)) (Nat.mod_lt _ (by omega)) heq
  exact hne (add_mod_injective (by omega) (by omega) hrow)

/-! ### Two draws -/

/-- A draw leaves what the hits of X and Y depend on, unless X or Y is F. -/
theorem State.hits_drawn {s : State} {x y : Nibble} (n : Nibble) (cells : List Nat) (hx : x ≠ 0xF)
    (hy : y ≠ 0xF) : (s.drawn cells).hits x y n = s.hits x y n := by
  simp only [State.hits, State.reg_drawn, if_neg hx, if_neg hy, State.drawn_cfg, State.drawn_mem,
    State.drawn_i]

/-- Each cell is turned over as often by the second draw as by the first. -/
theorem xorCells_xorCells {n : Nat} {cells px : List Nat} {hit hit' : Bool}
    (hp : pxWfFrom 0 n px = true) (hc : ∀ i ∈ cells, i < n) :
    (xorCells cells ((xorCells cells (px, hit)).1, hit')).1 = px := by
  have hp' := pxWfFrom_xorCells (hit := hit) hp hc
  refine px_ext (pxWfFrom_xorCells hp' hc) hp fun c => ?_
  rw [cellOn_xorCells c hp' hc, cellOn_xorCells c hp hc, Bool.xor_assoc, Bool.xor_self, Bool.xor_false]

/-- Settles O52: both draws are the draw of the same hits, and with all hits distinct the second finds on
exactly the cells that the first found off. -/
theorem drawingTwiceRestoresTheScreen : Obligations.DrawingTwiceRestoresTheScreen := by
  intro s t u x y n hs _ hx hy ht htrun hu
  have hrange := spriteInRange_of_exec ht htrun
  have hlt := State.hits_lt hs.config x y n
  obtain rfl := Host.Outcome.next.inj ((exec_drwVxVy_of_inRange x y hrange).symm.trans ht)
  have hrange' : (s.drawn (s.hits x y n)).spriteInRange n := hrange
  obtain rfl := Host.Outcome.next.inj ((exec_drwVxVy_of_inRange x y hrange').symm.trans hu)
  rw [State.hits_drawn n _ hx hy]
  refine ⟨xorCells_xorCells hs.pixels hlt, rfl, rfl, rfl, fun hn => ?_⟩
  obtain ⟨-, hw, -⟩ := Config.bounds_of_wf hs.config
  have hnodup : (s.hits x y n).Nodup := nodup_spriteHits hw hn _ _ _
  have hturned : ∀ c ∈ s.hits x y n,
      cellOn (xorCells (s.hits x y n) (s.px, false)).1 c = true ↔ cellOn s.px c = false := by
    intro c hc
    rw [cellOn_xorCells c hs.pixels hlt, List.count_eq_one_of_mem hnodup hc]
    simp
  rw [State.reg_drawn, if_pos rfl, flagByte_eq_one_iff, State.drawn_px,
    collision_xorCells_of_nodup (pxWfFrom_xorCells hs.pixels hlt) hlt hnodup]
  simp only [Bool.false_eq_true, false_or]
  exact exists_congr fun c => and_congr_right fun hc => hturned c hc

end Sys2Proof.Machine
